-- ==== Sys2Proof/Word.lean ====
section
/-! DEFINITION. The machine's one data width (00_scope.md R6, R7; 10_state.md R21; 20_memory.md R50). -/

namespace Sys2Proof

/-- A memory cell, a register or an operand byte: an unsigned integer of 8 bits (`CELL_BITS` and `XLEN` of
R6). Bit 0 is its least significant bit (R8). -/
abbrev Byte := BitVec 8

end Sys2Proof
end

