-- ==== Sys2Proof/Syntax.lean ====
section
/-! DEFINITION. The 13 instructions (00_scope.md R3) as syntax: mnemonics, and instructions with their decoded
operands (30_encoding.md R82 to R85). -/

namespace Sys2Proof

/-- The 13 mnemonics, in the document's order (R3). -/
inductive Mnemonic where
  | hlt | ldi | prn | mul | add | push | pop | call | ret | cmp | jmp | jeq | jne
  deriving DecidableEq, Repr

/-- The instruction set, one constructor per row of the opcode table. `a` and `b` are the operand bytes the row
uses, in address order (R83); the bytes an instruction ignores are not part of it (R91). A register index is the whole
operand byte as an unsigned integer, not masked (R84): an index of 8 or more names no register and is still an
instruction; the fault comes where the instruction's rule uses it. -/
inductive Instr where
  /-- Format Z (R120). -/
  | hlt
  /-- Format RI: `a` the destination register, `b` the immediate byte, used whole (R121, R85). -/
  | ldi (a : Nat) (b : Byte)
  /-- Format R: `a` the source register (R122). -/
  | prn (a : Nat)
  /-- Format RR: `a` first source and destination, `b` second source (R131). -/
  | mul (a b : Nat)
  /-- Format RR: `a` first source and destination, `b` second source (R132). -/
  | add (a b : Nat)
  /-- Format R: `a` the source register (R141). -/
  | push (a : Nat)
  /-- Format R: `a` the destination register (R142). -/
  | pop (a : Nat)
  /-- Format R: `a` the register that holds the target address (R150). -/
  | call (a : Nat)
  /-- Format Z (R151). -/
  | ret
  /-- Format RR: `a` the left side, `b` the right side (R161). -/
  | cmp (a b : Nat)
  /-- Format R: `a` the register that holds the target address (R162). -/
  | jmp (a : Nat)
  /-- Format R: `a` the register that holds the target address (R163). -/
  | jeq (a : Nat)
  /-- Format R: `a` the register that holds the target address (R164). -/
  | jne (a : Nat)
  deriving DecidableEq, Repr

end Sys2Proof
end

