-- ==== Sys2Proof/Config.lean ====
section
/-! DEFINITION. What is fixed for one core and open in the spec: the parameters of 00_scope.md R6 and
92_eei_decisions.md, and the free values of 60_exceptions.md R181. The default values of the parameters stand in
Decode.lean (`defaultConfig`). -/

namespace Sys2Proof

/-- The parameters a model takes (the table at the end of 92_eei_decisions.md). `SP_ALIASES_R7` is no field: it
is false, the only value the rules are written for (D2). -/
structure Config where
  /-- `OPC`, the opcode byte of each mnemonic (R86, D1): the Dispatch Table of R104, fixed at construction. The
  spec asks that it be injective; a statement that needs that says so. -/
  opc : Mnemonic → Byte
  /-- `RESET_GPR`, the reset value of registers 0 to 6 (D4; notes/assumptions/3.md). -/
  resetGpr : Byte
  /-- `PC_RESET` (D3; notes/assumptions/5.md). -/
  pcReset : Nat
  /-- `SP_RESET` (D2; notes/assumptions/4.md). -/
  spReset : Int

/-- `R7_RESET`, fixed by the document (R6): the reset value of register 7. -/
def resetX7 : Byte := 0xF4

/-! ### Free values (notes/assumptions/1.md)

DESIGN CHOICE (the form), safe. After a fatal abort the values of memory, the registers, `pc`, `sp` and the flags are unspecified (R181, U1: ANY
VALUE). Each is an opaque function of the whole state before the aborted step (R11: the state after a step is a
function of the state before it), so that nothing about it can be proved. The flags' values are numbers here, read
modulo 3 in Machine/Ops.lean as the three values a flag can hold. -/

/-- Free: the byte at `addr` after an abort from `before`. -/
opaque Config.abortedCell {σ : Type} (before : σ) (addr : Nat) : Byte
/-- Free: the registers after an abort from `before`. -/
opaque Config.abortedRegs {σ : Type} (before : σ) : Vector Byte 8
/-- Free: the program counter after an abort from `before`. -/
opaque Config.abortedPc {σ : Type} (before : σ) : Nat
/-- Free: the stack pointer after an abort from `before`. -/
opaque Config.abortedSp {σ : Type} (before : σ) : Int
/-- Free: the Equal flag after an abort from `before`. -/
opaque Config.abortedE {σ : Type} (before : σ) : Fin 3
/-- Free: the Less flag after an abort from `before`. -/
opaque Config.abortedL {σ : Type} (before : σ) : Fin 3
/-- Free: the Greater flag after an abort from `before`. -/
opaque Config.abortedG {σ : Type} (before : σ) : Fin 3

end Sys2Proof
end

