-- ==== Sys2Proof/WellFormed.lean ====
section
/-! DEFINITION. Which instruction terms the encoding can express (30_encoding.md R82, R84): every register index
is an operand byte. An index from 8 to 255 is well formed: R84 and R89 make it a fault when used, not an illegal
encoding. -/

namespace Sys2Proof

/-- A register index is an operand byte, an integer from 0 to 255 (R84). -/
def isOperandByte (i : Nat) : Bool := decide (i < 256)

/-- Every register index of the instruction is an operand byte. LDI's immediate is a byte by its type (R85). -/
def Instr.wellFormed : Instr → Bool
  | .hlt => true
  | .ldi a _ => isOperandByte a
  | .prn a => isOperandByte a
  | .mul a b => isOperandByte a && isOperandByte b
  | .add a b => isOperandByte a && isOperandByte b
  | .push a => isOperandByte a
  | .pop a => isOperandByte a
  | .call a => isOperandByte a
  | .ret => true
  | .cmp a b => isOperandByte a && isOperandByte b
  | .jmp a => isOperandByte a
  | .jeq a => isOperandByte a
  | .jne a => isOperandByte a

end Sys2Proof
end

