-- ==== Sys2Proof/Decode.lean ====
section
/-! DEFINITION. The instruction encoding (spec/30_encoding.md): the opcode map and its default, the resolution of
an opcode byte, the decoder on a step's three fetched bytes and on a list of bytes, and the encoder. -/

namespace Sys2Proof

/-! ### The opcode map -/

/-- The default `OPC` (R86). PRESUMED: from general knowledge (93_implementation_defined.md GK1). Unsafe for claims about
concrete bytes (notes/assumptions/6.md). -/
def defaultOpc : Mnemonic → Byte
  | .hlt => 0x01
  | .ldi => 0x82
  | .prn => 0x47
  | .mul => 0xA2
  | .add => 0xA0
  | .push => 0x45
  | .pop => 0x46
  | .call => 0x50
  | .ret => 0x11
  | .cmp => 0xA7
  | .jmp => 0x54
  | .jeq => 0x55
  | .jne => 0x56

/-- The parameters at their defaults (R6, R86; D1 to D4). The reset values are the spec's decisions where the document is
silent: DESIGN CHOICE, unsafe (notes/assumptions/3.md, 4.md, 5.md). -/
def defaultConfig : Config :=
  { opc := defaultOpc, resetGpr := 0, pcReset := 0, spReset := 0xF4 }

/-- The 13 mnemonics, in the order of R3. -/
def Mnemonic.all : List Mnemonic :=
  [.hlt, .ldi, .prn, .mul, .add, .push, .pop, .call, .ret, .cmp, .jmp, .jeq, .jne]

/-- The width of each instruction in bytes, opcode included (R83, R87): a property of the row, not computed from
bits of the opcode. -/
def Mnemonic.width : Mnemonic → Nat
  | .hlt => 1
  | .ldi => 3
  | .prn => 2
  | .mul => 3
  | .add => 3
  | .push => 2
  | .pop => 2
  | .call => 2
  | .ret => 1
  | .cmp => 3
  | .jmp => 2
  | .jeq => 2
  | .jne => 2

/-! ### Decoding -/

/-- Why bytes are no instruction, by name. -/
inductive Rejection where
  /-- The opcode byte is the `OPC` value of no mnemonic (R88). -/
  | unknownOpcode (op : Byte)
  /-- A list of bytes ends before the instruction's last operand byte (lists only; a step fetches three bytes). -/
  | truncated (m : Mnemonic)
  /-- An empty list of bytes holds no opcode (lists only). -/
  | noOpcode
  deriving DecidableEq, Repr

/-- The Dispatch Table's `resolve` (R104, R105): the whole opcode byte is compared with the 13 values of `OPC`. -/
def resolve (c : Config) (op : Byte) : Option Mnemonic :=
  Mnemonic.all.find? (fun m => c.opc m == op)

/-- The instruction of a mnemonic with the two raw operand bytes of its step (R82 to R85): a register index is the
whole byte as an unsigned integer, LDI's immediate is the byte itself, and operand bytes beyond the instruction's
width are ignored (R91). -/
def Mnemonic.withOperands (m : Mnemonic) (a b : Byte) : Instr :=
  match m with
  | .hlt => .hlt
  | .ldi => .ldi a.toNat b
  | .prn => .prn a.toNat
  | .mul => .mul a.toNat b.toNat
  | .add => .add a.toNat b.toNat
  | .push => .push a.toNat
  | .pop => .pop a.toNat
  | .call => .call a.toNat
  | .ret => .ret
  | .cmp => .cmp a.toNat b.toNat
  | .jmp => .jmp a.toNat
  | .jeq => .jeq a.toNat
  | .jne => .jne a.toNat

/-- The decoder of a step: the opcode byte and the two operand bytes fetched with it (R100 line 3). -/
def decode (c : Config) (op a b : Byte) : Except Rejection Instr :=
  match resolve c op with
  | none => .error (.unknownOpcode op)
  | some m => .ok (m.withOperands a b)

/-- The same decoder on a list of bytes in ascending address order (R80): the instruction and the bytes after it.
It asks only for the bytes of the instruction's own width. -/
def decodeBytes (c : Config) (bytes : List Byte) : Except Rejection (Instr × List Byte) :=
  match bytes with
  | [] => .error .noOpcode
  | op :: tail =>
    match resolve c op with
    | none => .error (.unknownOpcode op)
    | some m =>
      if tail.length + 1 < m.width then .error (.truncated m)
      else .ok (m.withOperands (tail.getD 0 0) (tail.getD 1 0), tail.drop (m.width - 1))

/-- Byte `k` of a number whose bit 0 is bit 0 of the first byte (byte 0 at the lowest address). -/
def wordByte (w k : Nat) : Byte := BitVec.ofNat 8 (w / 256 ^ k)

/-- The instruction the default decoder reads from an opcode-table word: byte 0 is the opcode, bytes 1 and 2 the
operand bytes, every bit from `nbits` upwards 0. -/
def decodeTableWord (nbits w : Nat) : Option Instr :=
  let v := w % 2 ^ nbits
  match decode defaultConfig (wordByte v 0) (wordByte v 1) (wordByte v 2) with
  | .ok i => some i
  | .error _ => none

/-! ### Encoding -/

/-- The mnemonic of an instruction. -/
def Instr.mnemonic : Instr → Mnemonic
  | .hlt => .hlt
  | .ldi _ _ => .ldi
  | .prn _ => .prn
  | .mul _ _ => .mul
  | .add _ _ => .add
  | .push _ => .push
  | .pop _ => .pop
  | .call _ => .call
  | .ret => .ret
  | .cmp _ _ => .cmp
  | .jmp _ => .jmp
  | .jeq _ => .jeq
  | .jne _ => .jne

/-- A register index as an operand byte. -/
def indexByte (i : Nat) : Byte := BitVec.ofNat 8 i

/-- The operand bytes of an instruction, in address order (the formats of R83). -/
def Instr.operandBytes : Instr → List Byte
  | .hlt => []
  | .ldi a b => [indexByte a, b]
  | .prn a => [indexByte a]
  | .mul a b => [indexByte a, indexByte b]
  | .add a b => [indexByte a, indexByte b]
  | .push a => [indexByte a]
  | .pop a => [indexByte a]
  | .call a => [indexByte a]
  | .ret => []
  | .cmp a b => [indexByte a, indexByte b]
  | .jmp a => [indexByte a]
  | .jeq a => [indexByte a]
  | .jne a => [indexByte a]

/-- The bytes of an instruction at ascending addresses: opcode first, then its operands (R80, R83). -/
def encode (c : Config) (i : Instr) : List Byte :=
  c.opc i.mnemonic :: i.operandBytes

end Sys2Proof
end

