-- ==== Sys2Proof/Machine/State.lean ====
section
/-! DEFINITION. The state of the core as plain data (10_state.md R20: "these elements and nothing else"), its
values after reset (R39), and the reasons a step can stop. -/

namespace Sys2Proof.Machine

/-- Memory (20_memory.md R50), as the list of its nonzero cells with strictly rising addresses below 256; an
unlisted address reads as 0 ("zero-initialized"). `Memory.wf` of Machine/Ops.lean states that form. -/
abbrev Memory := List Host.Cell

/-- A flag (R32): three values, of which `unset` is the one held from reset until the first CMP. -/
inductive Flag where
  | unset | zero | one
  deriving DecidableEq, Repr

/-- The run state (R34). `halted` and `aborted` are terminal (R101). -/
inductive RunState where
  | running | halted | aborted
  deriving DecidableEq, Repr

/-- What an out-of-range access was to (R35, R181). -/
inductive AccessKind where
  | memory | register
  deriving DecidableEq, Repr

/-- The cause record (R35): why the core stopped. The recorded value of an out-of-range access is the offending
address or index, an integer (R186; it is -1 for a CALL at `sp` 0). -/
inductive Cause where
  | none
  | hlt
  | unknownOpcode (op : Byte) (pcAt : Nat)
  | outOfRange (kind : AccessKind) (value : Int)
  deriving DecidableEq, Repr

/-- The core's output events (R36). -/
inductive Event where
  | out (v : Byte)
  | diag (op : Byte) (pcAt : Nat)
  deriving DecidableEq, Repr

/-- The whole state of the core (R20). -/
structure State where
  /-- `M[0]` to `M[255]` (R50). -/
  mem : Memory
  /-- `x[0]` to `x[7]` (R21); `x[7]` is not the stack pointer (R24). -/
  regs : Vector Byte 8
  /-- The program counter, an integer that is never wrapped (R26, R28). -/
  pc : Nat
  /-- The stack pointer, an integer (R29, R30). -/
  sp : Int
  /-- Equal (R32). -/
  flagE : Flag
  /-- Less (R32). -/
  flagL : Flag
  /-- Greater (R32). -/
  flagG : Flag
  /-- The run state (R34). -/
  run : RunState
  /-- The cause record (R35). -/
  cause : Cause
  /-- The trace, oldest event first (R36). -/
  trace : List Event
  deriving DecidableEq, Repr

/-- Why the machine can stop with a fault of its own. The spec's own stops are no faults here: an out-of-range
access is the `aborted` state (R181) and an unknown opcode the `halted` state (R106), both next states. -/
inductive Fault where
  /-- Raised by the ALU when it is asked for an operation other than ADD ("UnsupportedALUOperation — fatal",
  R130, R185). No instruction of the 13 asks for one, so no step raises it. DESIGN CHOICE, safe: nothing is computed
  (notes/assumptions/14.md). -/
  | unsupportedAluOperation (tag : Nat)
  deriving DecidableEq, Repr

/-- Why an instruction can be refused. -/
inductive Refusal where
  /-- Raised by an arm of `exec` whose instruction has no meaning yet; no arm raises it now. Safe. -/
  | notModelled (mnemonic : String)
  deriving DecidableEq, Repr

/-- The state after construction, before a load (R39, R210), for the given parameters: memory zero, `x[7]` at
0xF4, the flags unset, Running, cause none, trace empty. The parameters' defaults are the spec's decisions D2 to D4
(notes/assumptions/3.md, 4.md, 5.md). -/
def State.resetOf (c : Config) : State :=
  { mem := []
    regs := #v[c.resetGpr, c.resetGpr, c.resetGpr, c.resetGpr, c.resetGpr, c.resetGpr, c.resetGpr, resetX7]
    pc := c.pcReset
    sp := c.spReset
    flagE := .unset
    flagL := .unset
    flagG := .unset
    run := .running
    cause := .none
    trace := [] }

/-- The state right after reset with the default parameters (R39). -/
def State.reset : State := State.resetOf defaultConfig

end Sys2Proof.Machine
end

