-- ==== Sys2Proof/Machine/Ops.lean ====
section
/-! DEFINITION. The named operations every meaning is written over: memory and its controller (20_memory.md),
the register file (10_state.md R22, R23), the program counter, the trace, raising an out-of-range event and the
unknown-opcode event (60_exceptions.md R181, R184), the end of an instruction's rule, and the load (R212). -/

namespace Sys2Proof.Machine

/-! ### The memory array (R50) -/

/-- What a cell holds that nothing has written: memory is zero-initialized (R50, R39). -/
def unlistedByte : Byte := 0

/-- The byte at an address, `M[a]` (R50). -/
def Memory.read : Memory → Nat → Byte
  | [], _ => unlistedByte
  | (k, w) :: rest, a => if k = a then w else Memory.read rest a

/-- `M[a]` takes the value `v`; a cell that becomes 0 is no longer listed. -/
def Memory.write : Memory → Nat → Byte → Memory
  | [], a, v => if v = unlistedByte then [] else [(a, v)]
  | (k, w) :: rest, a, v =>
    if a < k then (if v = unlistedByte then (k, w) :: rest else (a, v) :: (k, w) :: rest)
    else if a = k then (if v = unlistedByte then rest else (a, v) :: rest)
    else (k, w) :: Memory.write rest a v

/-- The listed addresses rise strictly from `lo` and stay below 256, and no listed byte is 0. -/
def Memory.wfFrom : Nat → Memory → Bool
  | _, [] => true
  | lo, (k, w) :: rest => decide (lo ≤ k) && decide (k < 256) && decide (w ≠ unlistedByte) && Memory.wfFrom (k + 1) rest

/-- The canonical form of memory: one list for one content. -/
def Memory.wf (m : Memory) : Bool := Memory.wfFrom 0 m

/-- The canonical memory whose cells `start` to `start + n - 1` hold the bytes of `f`, every other cell 0. -/
def Memory.ofBytesFrom (f : Nat → Byte) : Nat → Nat → Memory
  | _, 0 => []
  | start, n + 1 =>
    if f start = unlistedByte then Memory.ofBytesFrom f (start + 1) n
    else (start, f start) :: Memory.ofBytesFrom f (start + 1) n

/-- The canonical memory of 256 cells whose cell `a` holds `f a`. -/
def Memory.ofBytes (f : Nat → Byte) : Memory := Memory.ofBytesFrom f 0 256

/-! ### Events that end a step before the rule's last line -/

/-- What a line of a rule raises. -/
inductive Raised where
  /-- `raise OutOfRange(kind, value)` (R181). -/
  | outOfRange (kind : AccessKind) (value : Int)
  /-- The ALU's `UnsupportedOperation` (R130, R185). -/
  | unsupportedOperation (tag : Nat)
  deriving DecidableEq, Repr

/-- One of the three values of a flag, from a free number. -/
def flagOfFin (n : Fin 3) : Flag :=
  if n = 0 then .unset else if n = 1 then .zero else .one

/-- `raise OutOfRange(kind, value)` as the end of a step that began in `before` (R181): `run` and `cause` are
written, the trace keeps every event emitted before (DEDUCED, safe: notes/assumptions/22.md), and everything else is a
free value (DESIGN CHOICE in form, safe: notes/assumptions/1.md). -/
def abort (kind : AccessKind) (value : Int) (before : State) : State :=
  { mem := Memory.ofBytes (Config.abortedCell before)
    regs := Config.abortedRegs before
    pc := Config.abortedPc before
    sp := Config.abortedSp before
    flagE := flagOfFin (Config.abortedE before)
    flagL := flagOfFin (Config.abortedL before)
    flagG := flagOfFin (Config.abortedG before)
    run := .aborted
    cause := .outOfRange kind value
    trace := before.trace }

/-- The unknown-opcode event (R106, R184): a diagnostic with the opcode byte and the `pc` it was fetched at, the
cause, and the clean halt; nothing else changes and `pc` is not advanced. There is no entry sequence, nothing is
saved and nothing returns (R189, R190). -/
def unknownOpcode (op : Byte) (s : State) : State :=
  { s with
    trace := s.trace ++ [.diag op s.pc]
    cause := .unknownOpcode op s.pc
    run := .halted }

/-- The end of a step that began in `before`: the state its rule reached, or the event a line raised, after which
no later line executes (R181). -/
def conclude (before : State) (result : Except Raised State) : Host.Outcome State Fault Refusal :=
  match result with
  | .ok t => .next t
  | .error (.outOfRange kind value) => .next (abort kind value before)
  | .error (.unsupportedOperation tag) => .fault (.unsupportedAluOperation tag)

/-! ### The memory controller (R52, R53, R54) -/

/-- `MemRead(addr, 1)` (R52). The address is an integer, neither reduced nor counted from the end. -/
def memRead (addr : Int) (s : State) : Except Raised Byte :=
  if 0 ≤ addr ∧ addr < 256 then .ok (Memory.read s.mem addr.toNat)
  else .error (.outOfRange .memory addr)

/-- `MemWrite(addr, 1, v)` (R53). -/
def memWrite (addr : Int) (v : Byte) (s : State) : Except Raised State :=
  if 0 ≤ addr ∧ addr < 256 then .ok { s with mem := Memory.write s.mem addr.toNat v }
  else .error (.outOfRange .memory addr)

/-! ### The register file (R21 to R23) -/

/-- `x[i]` (R22): the index is not masked. -/
def regRead (i : Nat) (s : State) : Except Raised Byte :=
  if h : i < 8 then .ok s.regs[i] else .error (.outOfRange .register i)

/-- `x[i] <- v` (R23): the value is reduced modulo 256 before storage. -/
def regWrite (i : Nat) (v : Nat) (s : State) : Except Raised State :=
  if h : i < 8 then .ok { s with regs := s.regs.set i (BitVec.ofNat 8 v) }
  else .error (.outOfRange .register i)

/-! ### Program counter, stack pointer, run state, trace -/

/-- `pc <- pc + width`, not reduced (R107, R28). -/
def advance (width : Nat) (s : State) : State := { s with pc := s.pc + width }

/-- `pc <- t`: a control transfer to an absolute byte address, any byte (R108, R56). -/
def jump (t : Byte) (s : State) : State := { s with pc := t.toNat }

/-- `sp <- v` (R29). -/
def setSp (v : Int) (s : State) : State := { s with sp := v }

/-- `emit ev` (R36): appended to the end of the trace; it never blocks and never fails. -/
def emit (ev : Event) (s : State) : State := { s with trace := s.trace ++ [ev] }

/-- The normal end of a run, `cause <- hlt; run <- Halted` (R120). -/
def halt (s : State) : State := { s with cause := .hlt, run := .halted }

/-! ### Fetch (R100 lines 1 and 2, R102) -/

/-- The three fetches of every step, in order and unconditional: opcode, first operand byte, second operand byte. -/
def fetch (s : State) : Except Raised (Byte × Byte × Byte) := do
  let op ← memRead s.pc s
  let a ← memRead (s.pc + 1) s
  let b ← memRead (s.pc + 2) s
  return (op, a, b)

/-! ### Load (R212) -/

/-- The loader's result: the image from address 0, every other cell 0, nothing else changed (R212). An image longer
than 256 bytes is no input of a run (R213; notes/assumptions/16.md), so the load takes the proof that it fits. -/
def State.load (image : List Byte) (_fits : image.length ≤ 256) (s : State) : State :=
  { s with mem := Memory.ofBytes (fun a => image.getD a unlistedByte) }

/-- A state from which the next step can fetch: a terminal state is made Running again, and a `pc` whose three
fetches would leave memory is set to 0. DESIGN CHOICE, safe: for placing an instruction only, no step does this
(notes/assumptions/17.md). -/
def readyToFetch (s : State) : State :=
  let t := match s.run with
    | .running => s
    | .halted => { s with run := .running, cause := .none }
    | .aborted => { s with run := .running, cause := .none }
  if t.pc ≤ 253 then t else { t with pc := 0 }

/-- The three bytes of the number `v` (byte 0 first) at `pc`, `pc + 1`, `pc + 2`. -/
def placeAtPc (v : Nat) (s : State) : State :=
  let m0 := Memory.write s.mem s.pc (wordByte v 0)
  let m1 := Memory.write m0 (s.pc + 1) (wordByte v 1)
  { s with mem := Memory.write m1 (s.pc + 2) (wordByte v 2) }

end Sys2Proof.Machine
end

