-- ==== Sys2Proof/Machine/Alu.lean ====
section
/-! DEFINITION. The ALU (42_arithmetic.md R130): a register-to-register transform that a handler asks for, with one
operation. -/

namespace Sys2Proof.Machine

/-- The operation tags the ALU can be asked for: ADD, and "any other operation tag" (R130). -/
inductive AluTag where
  | add
  | other (tag : Nat)
  deriving DecidableEq, Repr

/-- `apply(operation, operandA_index, operandB_index)` (R130): ADD stores (regA + regB) mod 256 into regA, any other
tag fails and computes nothing (R185). The ALU touches neither `pc` nor the flags. -/
def aluApply (op : AluTag) (ia ib : Nat) (s : State) : Except Raised State :=
  match op with
  | .add => do
    let va ← regRead ia s
    let vb ← regRead ib s
    regWrite ia (va.toNat + vb.toNat) s
  | .other tag => .error (.unsupportedOperation tag)

end Sys2Proof.Machine
end

