-- ==== Sys2Proof/Machine/Arithmetic.lean ====
section
/-! DEFINITION. MUL, ADD (spec/42_arithmetic.md). The exact result is computed and the register write keeps its
residue modulo 256 (R133). -/

namespace Sys2Proof.Machine

/-- MUL (R131): the low 8 bits of the product of two unsigned bytes; both reads come before the write. -/
def execMul (a b : Nat) (s : State) : Host.Outcome State Fault Refusal :=
  conclude s do
    let va ← regRead a s
    let vb ← regRead b s
    let t ← regWrite a (va.toNat * vb.toNat) s
    return advance 3 t

/-- ADD (R132): the handler asks the ALU for ADD and advances `pc` itself. -/
def execAdd (a b : Nat) (s : State) : Host.Outcome State Fault Refusal :=
  conclude s do
    let t ← aluApply .add a b s
    return advance 3 t

end Sys2Proof.Machine
end

