-- ==== Sys2Proof/Machine/Operands.lean ====
section
/-! DEFINITION. The operand forms: the immediate (R85), the register index re-read from memory (R141, R142), the
stack addressing of each of the four stack instructions (R31, R140), and the return address (R150). A plain register
operand is `regRead` or `regWrite` of the index. -/

namespace Sys2Proof.Machine

/-- The immediate operand of LDI: the byte itself, unsigned and used whole (R85). -/
def immediate (b : Byte) : Nat := b.toNat

/-- The register index PUSH and POP read again from memory at `pc + 1`, independent of the operand byte they were
passed (R141, R142). DEDUCED, safe: in a step the two are the same (notes/assumptions/12.md). -/
def rereadIndex (s : State) : Except Raised Nat := do
  let idx ← memRead (s.pc + 1) s
  return idx.toNat

/-- `sp` after the decrement of PUSH, reduced modulo 256: the address PUSH writes (R31, R141). -/
def pushSp (s : State) : Int := (s.sp - 1) % 256

/-- `sp` after the increment of POP, reduced modulo 256 (R31, R142). -/
def popSp (s : State) : Int := (s.sp + 1) % 256

/-- `sp` after the decrement of CALL, not reduced: the address CALL writes (R31, R150). DESIGN CHOICE of the spec
(D6, C1; notes/assumptions/8.md). -/
def callSp (s : State) : Int := s.sp - 1

/-- `sp` after the increment of RET, not reduced (R31, R151). -/
def retSp (s : State) : Int := s.sp + 1

/-- The return address of a CALL at `pc`, the byte after the 2-byte instruction. It is at most 255 wherever a CALL
can be fetched (R150, R53). DEDUCED, safe: the narrowing shows only where no CALL can be fetched
(notes/assumptions/13.md). -/
def returnAddress (s : State) : Byte := BitVec.ofNat 8 (s.pc + 2)

end Sys2Proof.Machine
end

