-- ==== Sys2Proof/Machine/Flags.lean ====
section
/-! DEFINITION. The comparator: the Flag State's `compare` (45_compare_branch.md R160), the only writer of the
flags (10_state.md R33). -/

namespace Sys2Proof.Machine

/-- A flag is 1 when its relation holds and 0 when it does not (R160). -/
def flagOf (holds : Bool) : Flag := if holds then .one else .zero

/-- `compare(valueA, valueB)` (R160): all three flags, from the comparison of unsigned integers. -/
def compareFlags (va vb : Byte) (s : State) : State :=
  { s with
    flagE := flagOf (decide (va.toNat = vb.toNat))
    flagL := flagOf (decide (va.toNat < vb.toNat))
    flagG := flagOf (decide (va.toNat > vb.toNat)) }

end Sys2Proof.Machine
end

