-- ==== Sys2Proof/Machine/CompareBranch.lean ====
section
/-! DEFINITION. CMP, JMP, JEQ, JNE (spec/45_compare_branch.md). -/

namespace Sys2Proof.Machine

/-- CMP (R161): both reads come before any flag is written. -/
def execCmp (a b : Nat) (s : State) : Host.Outcome State Fault Refusal :=
  conclude s do
    let va ← regRead a s
    let vb ← regRead b s
    return advance 3 (compareFlags va vb s)

/-- JMP (R162). -/
def execJmp (a : Nat) (s : State) : Host.Outcome State Fault Refusal :=
  conclude s do
    let t ← regRead a s
    return jump t s

/-- JEQ (R163): taken exactly when Equal is 1; the register is read on the taken side only (D14). DESIGN CHOICE of the spec,
unsafe in that corner (notes/assumptions/11.md). -/
def execJeq (a : Nat) (s : State) : Host.Outcome State Fault Refusal :=
  conclude s <|
    match s.flagE with
    | .one => do
      let t ← regRead a s
      return jump t s
    | .zero => return advance 2 s
    | .unset => return advance 2 s

/-- JNE (R164): taken exactly when Equal is explicitly 0, not merely "not 1"; the register is read on the taken
side only (D14; notes/assumptions/11.md). -/
def execJne (a : Nat) (s : State) : Host.Outcome State Fault Refusal :=
  conclude s <|
    match s.flagE with
    | .zero => do
      let t ← regRead a s
      return jump t s
    | .one => return advance 2 s
    | .unset => return advance 2 s

end Sys2Proof.Machine
end

