-- ==== Sys2Proof/Machine/HaltLoadPrint.lean ====
section
/-! DEFINITION. HLT, LDI, PRN (spec/41_halt_load_print.md). -/

namespace Sys2Proof.Machine

/-- HLT (R120). `pc` is advanced by the general rule (D8). DESIGN CHOICE, unsafe for a claim that
names this `pc`, and none does (U2; notes/assumptions/9.md). -/
def execHlt (s : State) : Host.Outcome State Fault Refusal :=
  conclude s (.ok (advance 1 (halt s)))

/-- LDI (R121): `x[a] <- b`. -/
def execLdi (a : Nat) (b : Byte) (s : State) : Host.Outcome State Fault Refusal :=
  conclude s do
    let t ← regWrite a (immediate b) s
    return advance 3 t

/-- PRN (R122): the register is read before anything is emitted. -/
def execPrn (a : Nat) (s : State) : Host.Outcome State Fault Refusal :=
  conclude s do
    let v ← regRead a s
    return advance 2 (emit (.out v) s)

end Sys2Proof.Machine
end

