-- ==== Sys2Proof/Machine/Stack.lean ====
section
/-! DEFINITION. PUSH, POP (spec/43_stack.md). -/

namespace Sys2Proof.Machine

/-- PUSH (R141): decrement `sp` modulo 256, re-read the register index, read the register, write the stack cell. -/
def execPush (s : State) : Host.Outcome State Fault Refusal :=
  conclude s do
    let s1 := setSp (pushSp s) s
    let idx ← rereadIndex s1
    let v ← regRead idx s1
    let s2 ← memWrite s1.sp v s1
    return advance 2 s2

/-- POP (R142): re-read the register index, read the stack cell, write the register, increment `sp` modulo 256. -/
def execPop (s : State) : Host.Outcome State Fault Refusal :=
  conclude s do
    let idx ← rereadIndex s
    let v ← memRead s.sp s
    let s1 ← regWrite idx v.toNat s
    return advance 2 (setSp (popSp s1) s1)

end Sys2Proof.Machine
end

