-- ==== Sys2Proof/Machine/Subroutine.lean ====
section
/-! DEFINITION. CALL, RET (spec/44_subroutine.md). Neither reduces `sp` (R31). -/

namespace Sys2Proof.Machine

/-- CALL (R150): decrement `sp` unreduced, write the return address, read the target register, transfer. -/
def execCall (a : Nat) (s : State) : Host.Outcome State Fault Refusal :=
  conclude s do
    let s1 := setSp (callSp s) s
    let s2 ← memWrite s1.sp (returnAddress s1) s1
    let t ← regRead a s2
    return jump t s2

/-- RET (R151): read the stack cell, transfer to it, increment `sp` unreduced. -/
def execRet (s : State) : Host.Outcome State Fault Refusal :=
  conclude s do
    let t ← memRead s.sp s
    let s1 := jump t s
    return setSp (retSp s1) s1

end Sys2Proof.Machine
end

