-- ==== Sys2Proof/Machine/Cycle.lean ====
section
/-! DEFINITION. One step of the engine for given parameters (spec/40_fetch_dispatch.md R100, R101, R110). -/

namespace Sys2Proof.Machine

/-- Resolve and invoke (R100 line 3, R105): the meaning of the fetched instruction, or the unknown-opcode event,
which concerns the opcode byte only (R106). -/
def invoke (c : Config) (op a b : Byte) (s : State) : Host.Outcome State Fault Refusal :=
  match decode c op a b with
  | .ok i => exec i s
  | .error _ => .next (unknownOpcode op s)

/-- One step. In a terminal state the engine performs none and no state element changes (R101); answering the same state
for that is a DESIGN CHOICE, safe for claims about state (notes/assumptions/2.md). A Running core fetches its three bytes, aborts at the first that is out of range (R103), and
otherwise resolves and invokes. -/
def cycle (c : Config) (s : State) : Host.Outcome State Fault Refusal :=
  match s.run with
  | .halted => .next s
  | .aborted => .next s
  | .running =>
    match fetch s with
    | .ok (op, a, b) => invoke c op a b s
    | .error r => conclude s (.error r)

end Sys2Proof.Machine
end

