-- ==== Sys2Proof/Machine/Step.lean ====
section
/-! DEFINITION. The step of the core with the default parameters, and the placing of one instruction where that step
fetches it. -/

namespace Sys2Proof.Machine

/-- One step of the core (R100) with the default `OPC` (R86). -/
def step (s : State) : Host.Outcome State Fault Refusal := cycle defaultConfig s

/-- `s` with the instruction word `w` (its low `nbits` bits, numbered as the opcode table numbers them) stored where
the next step fetches. It stands for the loader (notes/assumptions/16.md, 17.md). -/
def State.withFetchWord (s : State) (nbits w : Nat) : State :=
  placeAtPc (w % 2 ^ nbits) (readyToFetch s)

end Sys2Proof.Machine
end

