-- ==== Sys2Proof/Safety.lean ====
section
/-! DEFINITION. What counts as a safe run, in the terms the statements use: the invariant of every state a run can
reach (10_state.md R20, R28, R30, R33 to R36; 60_exceptions.md R182, R183), an abort, the bytes a step fetches, and the
reachable states. -/

namespace Sys2Proof.Machine

/-! ### What a step fetches -/

/-- The opcode byte of the step at `s` (R100). -/
def opcodeAt (s : State) : Byte := Memory.read s.mem s.pc

/-- The first operand byte of the step at `s` (R102). -/
def operandA (s : State) : Byte := Memory.read s.mem (s.pc + 1)

/-- The second operand byte of the step at `s` (R102). -/
def operandB (s : State) : Byte := Memory.read s.mem (s.pc + 2)

/-! ### Outcomes -/

/-- The outcome of a fatal abort from `before` (R181), and no more of it than the spec makes observable: `run`,
`cause` and the trace (U1). That `cause` records the offending address or index is D12 (notes/assumptions/25.md). -/
def Aborts (before : State) (kind : AccessKind) (value : Int) (o : Host.Outcome State Fault Refusal) : Prop :=
  ∃ t, o = .next t ∧ t.run = .aborted ∧ t.cause = .outOfRange kind value ∧ t.trace = before.trace

/-- The outcome is the state `t`, and `t` is no abort: the instruction's rule ran to its last line. -/
def CompletesWith (t : State) (o : Host.Outcome State Fault Refusal) : Prop :=
  o = .next t ∧ t.run ≠ .aborted

/-- All three flags of `t` are those of `s`. -/
def SameFlags (s t : State) : Prop := t.flagE = s.flagE ∧ t.flagL = s.flagL ∧ t.flagG = s.flagG

/-- Run state, cause and trace of `t` are those of `s`. -/
def SameRecord (s t : State) : Prop := t.run = s.run ∧ t.cause = s.cause ∧ t.trace = s.trace

/-- Every byte of memory reads in `t` as in `s`. -/
def SameMemory (s t : State) : Prop := ∀ k, Memory.read t.mem k = Memory.read s.mem k

/-- Every general register reads in `t` as in `s`. -/
def SameRegs (s t : State) : Prop := ∀ i : Fin 8, t.regs[i] = s.regs[i]

/-! ### The invariant -/

/-- The flag values that can be reached (R33): all three unset, or exactly one of them 1 and the other two 0. -/
def State.flagsLegal (s : State) : Bool :=
  match s.flagE, s.flagL, s.flagG with
  | .unset, .unset, .unset => true
  | .one, .zero, .zero => true
  | .zero, .one, .zero => true
  | .zero, .zero, .one => true
  | _, _, _ => false

/-- The cause tells why the core stopped (R35): none while Running, `hlt` or an unknown opcode when Halted, an
out-of-range access when Aborted. -/
def State.causeTellsRun (s : State) : Bool :=
  match s.run, s.cause with
  | .running, .none => true
  | .halted, .hlt => true
  | .halted, .unknownOpcode _ _ => true
  | .aborted, .outOfRange _ _ => true
  | _, _ => false

/-- The only values a cause can record: address 256 or -1 (R182), index 8 to 255 (R183), and the `pc` of an unknown
opcode, which is still the `pc` (R106) and at most 253 (R184). -/
def State.causeValueLegal (s : State) : Bool :=
  match s.cause with
  | .none => true
  | .hlt => true
  | .unknownOpcode _ pcAt => decide (pcAt = s.pc ∧ pcAt ≤ 253)
  | .outOfRange .memory v => decide (v = 256 ∨ v = -1)
  | .outOfRange .register v => decide (8 ≤ v ∧ v ≤ 255)

/-- The event is the output of a PRN. -/
def Event.isOut : Event → Bool
  | .out _ => true
  | .diag _ _ => false

/-- A diagnostic is always the last event of a run (R36): the trace holds outputs only, but for the one diagnostic
of the unknown opcode that halted the core, at its end. -/
def State.traceLegal (s : State) : Bool :=
  match s.cause with
  | .unknownOpcode op pcAt => decide (s.trace.getLast? = some (.diag op pcAt)) && s.trace.dropLast.all Event.isOut
  | _ => s.trace.all Event.isOut

/-- What holds of every state a run can reach. After an abort memory, `pc`, `sp` and the flags are unspecified (R181)
and only the form of memory as data remains. -/
structure State.Inv (s : State) : Prop where
  memCanonical : Memory.wf s.mem = true
  pcInRange : s.run ≠ .aborted → s.pc ≤ 256
  spInRange : s.run ≠ .aborted → 0 ≤ s.sp ∧ s.sp ≤ 256
  flagsLegal : s.run ≠ .aborted → s.flagsLegal = true
  causeTellsRun : s.causeTellsRun = true
  causeValueLegal : s.causeValueLegal = true
  traceLegal : s.traceLegal = true

/-- Reset values a core can be constructed with: `pc` and `sp` are addresses up to 256 (R20). -/
def resetLegal (c : Config) : Prop := c.pcReset ≤ 256 ∧ 0 ≤ c.spReset ∧ c.spReset ≤ 256

/-- The states a core with parameters `c` reaches from construction and the load of an image that fits (R210, R212,
R213), step by step (R109). -/
inductive Reachable (c : Config) : State → Prop where
  | start (image : List Byte) (fits : image.length ≤ 256) : Reachable c (State.load image fits (State.resetOf c))
  | step {s t : State} (before : Reachable c s) (h : cycle c s = .next t) : Reachable c t

end Sys2Proof.Machine
end

