-- ==== Sys2Proof/Certificates/Slice0/Obligations.lean ====
section
/-! DEFINITION. The statements for the provers. Each docstring says which rule of spec/ it formalises. `cycle c` is
the step of a core with parameters `c`, `step` the step with the defaults. `Fin 8` ranges over the valid register
indices; statements for a bad index take a plain index of 8 or more.

What a statement takes from a decision of the spec (92_eei_decisions.md), not from the document, its docstring says with
the log entry. Two decisions run through many: an abort is a run state of its own and records the offending address or
index (D7, D12; notes/assumptions/25.md), and `pc` is never reduced modulo 256 (D5; notes/assumptions/7.md). -/

open Sys2Proof Sys2Proof.Machine

/-! ### Encoding -/

/-- R83 with the default opcodes of R86 (from general knowledge, notes/assumptions/6.md): one word of every row of the
opcode table decodes to the instruction it stands for, and 0x00 to none (R88). -/
def Obligations.OpcodeTableWordsDecode : Prop :=
  decodeTableWord 8 0x01 = some .hlt ∧ decodeTableWord 24 0x080082 = some (.ldi 0 8) ∧
  decodeTableWord 16 0x0747 = some (.prn 7) ∧ decodeTableWord 24 0x0100A2 = some (.mul 0 1) ∧
  decodeTableWord 24 0xFF02A0 = some (.add 2 255) ∧ decodeTableWord 16 0x0045 = some (.push 0) ∧
  decodeTableWord 16 0x0346 = some (.pop 3) ∧ decodeTableWord 16 0x0150 = some (.call 1) ∧
  decodeTableWord 8 0x11 = some .ret ∧ decodeTableWord 24 0x0200A7 = some (.cmp 0 2) ∧
  decodeTableWord 16 0x0354 = some (.jmp 3) ∧ decodeTableWord 16 0x0455 = some (.jeq 4) ∧
  decodeTableWord 16 0x0856 = some (.jne 8) ∧ decodeTableWord 8 0x00 = none

/-- R80 to R87, for every injective `OPC` (D1): decoding the bytes of a well-formed instruction gives that instruction,
with every operand at every value a byte admits, and the bytes after it. -/
def Obligations.DecodeInvertsEncode : Prop :=
  ∀ c : Config, Function.Injective c.opc → ∀ i : Instr, i.wellFormed = true → ∀ rest : List Byte,
    decodeBytes c (encode c i ++ rest) = .ok (i, rest)

/-- R81 to R85, the other direction: bytes that decode are the encoding of the decoded instruction, which is well
formed, followed by the rest; and the encoding has the instruction's width (R83). -/
def Obligations.EncodeInvertsDecode : Prop :=
  ∀ (c : Config) (bytes : List Byte) (i : Instr) (rest : List Byte),
    decodeBytes c bytes = .ok (i, rest) →
      i.wellFormed = true ∧ encode c i ++ rest = bytes ∧ (encode c i).length = i.mnemonic.width

/-- R88 with the default opcodes: the unknown opcodes are the bytes other than the 13 values, 243 of them, and each is
rejected by name whatever its operand bytes. -/
def Obligations.UnknownOpcodesAreTheOther243 : Prop :=
  (∀ op a b : Byte, decode defaultConfig op a b = .error (.unknownOpcode op) ↔
    op ∉ ([0x01, 0x11, 0x45, 0x46, 0x47, 0x50, 0x54, 0x55, 0x56, 0x82, 0xA0, 0xA2, 0xA7] : List Byte)) ∧
  ((List.range 256).filter (fun n => (resolve defaultConfig (BitVec.ofNat 8 n)).isNone)).length = 243

/-- R91: the operand bytes beyond an instruction's width do not change what is decoded. -/
def Obligations.BytesBeyondTheWidthAreIgnored : Prop :=
  ∀ (c : Config) (op a b : Byte) (i : Instr), decode c op a b = .ok i →
    (i.mnemonic.width = 1 → ∀ a' b', decode c op a' b' = .ok i) ∧
    (i.mnemonic.width = 2 → ∀ b', decode c op a b' = .ok i) ∧
    1 ≤ i.mnemonic.width ∧ i.mnemonic.width ≤ 3

/-! ### Memory -/

/-- R52: a read in range gives the cell and an address outside 0 to 255 raises; the address is not reduced. -/
def Obligations.MemReadIsBoundsChecked : Prop :=
  ∀ (s : State) (addr : Int),
    (0 ≤ addr → addr < 256 → memRead addr s = .ok (Memory.read s.mem addr.toNat)) ∧
    (addr < 0 ∨ 256 ≤ addr → memRead addr s = .error (.outOfRange .memory addr))

/-- R53: a write in range changes that cell and nothing else; a write outside raises. The premise is the canonical form
of memory, which every step keeps. -/
def Obligations.MemWriteChangesOneCell : Prop :=
  ∀ (s : State) (addr : Int) (v : Byte), Memory.wf s.mem = true →
    (0 ≤ addr → addr < 256 →
      ∃ t, memWrite addr v s = .ok t ∧ Memory.read t.mem addr.toNat = v ∧
        (∀ k : Nat, (k : Int) ≠ addr → Memory.read t.mem k = Memory.read s.mem k) ∧
        t = { s with mem := t.mem } ∧ Memory.wf t.mem = true) ∧
    (addr < 0 ∨ 256 ≤ addr → memWrite addr v s = .error (.outOfRange .memory addr))

/-- Memory as data is its content: two canonical memories whose bytes agree are equal (R50). -/
def Obligations.CanonicalMemoryIsItsBytes : Prop :=
  ∀ m n : Memory, Memory.wf m = true → Memory.wf n = true → (∀ k, Memory.read m k = Memory.read n k) → m = n

/-! ### Registers -/

/-- R22: a read of a valid index gives the register, an index of 8 or more raises and is not masked. -/
def Obligations.RegReadIsBoundsChecked : Prop :=
  ∀ (s : State) (i : Nat),
    (∀ h : i < 8, regRead i s = .ok s.regs[i]) ∧ (8 ≤ i → regRead i s = .error (.outOfRange .register i))

/-- R23: a write of a valid index stores the value modulo 256 in that register and changes nothing else, an index of 8
or more raises. -/
def Obligations.RegWriteChangesOneRegister : Prop :=
  ∀ (s : State) (i : Nat) (v : Nat),
    (∀ h : i < 8, ∃ t, regWrite i v s = .ok t ∧ t.regs[i].toNat = v % 256 ∧
      (∀ j (hj : j < 8), j ≠ i → t.regs[j] = s.regs[j]) ∧ t = { s with regs := t.regs }) ∧
    (8 ≤ i → regWrite i v s = .error (.outOfRange .register i))

/-! ### Reset and load -/

/-- R39. That registers 0 to 6 and `pc` are 0 and that `sp` starts at 0xF4 are the spec's decisions D4, D3 and D2
(notes/assumptions/3.md, 5.md, 4.md), the other values the document's. -/
def Obligations.ResetStateIsAsTabulated : Prop :=
  (∀ k, Memory.read State.reset.mem k = 0) ∧ (∀ i : Fin 8, i ≠ 7 → State.reset.regs[i] = 0) ∧
  State.reset.regs[7] = 0xF4 ∧ State.reset.pc = 0 ∧ State.reset.sp = 0xF4 ∧ State.reset.flagE = .unset ∧
  State.reset.flagL = .unset ∧ State.reset.flagG = .unset ∧ State.reset.run = .running ∧
  State.reset.cause = .none ∧ State.reset.trace = []

/-- R212, with R213's precondition: the load places the image from address 0, leaves every other cell 0 and changes
nothing else; it makes a canonical memory. -/
def Obligations.LoadPlacesTheImage : Prop :=
  ∀ (c : Config) (image : List Byte) (fits : image.length ≤ 256),
    let t := State.load image fits (State.resetOf c)
    (∀ k (h : k < image.length), Memory.read t.mem k = image[k]) ∧
    (∀ k, image.length ≤ k → Memory.read t.mem k = 0) ∧
    t = { State.resetOf c with mem := t.mem } ∧ Memory.wf t.mem = true

/-! ### The instructions: result and completion -/

/-- R120 without its `pc` (notes/assumptions/9.md): HLT always completes, records its cause and halts, and leaves
registers, memory, `sp`, flags and the trace unchanged. -/
def Obligations.HltHaltsAndKeepsTheRest : Prop :=
  ∀ s : State, ∃ t, exec .hlt s = .next t ∧ t.run = .halted ∧ t.cause = .hlt ∧ t.regs = s.regs ∧ t.mem = s.mem ∧
    t.sp = s.sp ∧ SameFlags s t ∧ t.trace = s.trace

/-- R121: LDI completes for every register and every immediate, with `x[a] = b` and `pc + 3`. -/
def Obligations.LdiLoadsTheImmediate : Prop :=
  ∀ (s : State) (a : Fin 8) (b : Byte),
    exec (.ldi a b) s = .next { s with regs := s.regs.set a b, pc := s.pc + 3 }

/-- R122: the encoding of PRN, its output event, and its fault, before which nothing is emitted. That the abort records
the index is the spec's decision D12 (R186; notes/assumptions/25.md), a DESIGN CHOICE. -/
def Obligations.PrnEmitsTheRegister : Prop :=
  (∀ (c : Config) (a : Nat), encode c (.prn a) = [c.opc .prn, BitVec.ofNat 8 a]) ∧
  (∀ (s : State) (a : Fin 8),
    exec (.prn a) s = .next { s with trace := s.trace ++ [.out s.regs[a]], pc := s.pc + 2 }) ∧
  (∀ (s : State) (a : Nat), 8 ≤ a → Aborts s .register a (exec (.prn a) s))

/-- R131: MUL keeps the low 8 bits of the product of two unsigned bytes. -/
def Obligations.MulKeepsTheLowByte : Prop :=
  ∀ (s : State) (a b : Fin 8), ∃ p : Byte, p.toNat = (s.regs[a].toNat * s.regs[b].toNat) % 256 ∧
    exec (.mul a b) s = .next { s with regs := s.regs.set a p, pc := s.pc + 3 }

/-- R132: the encoding of ADD, its sum modulo 256, and its faults. That an abort records the index is D12
(notes/assumptions/25.md), and that it is `a` where both are bad is the order of D9 (R110, R188, U16;
notes/assumptions/10.md): both are the spec's own decisions, DESIGN CHOICE in the log, not the document's. The recorded
cause is unsafe to carry over to another core where both indices are bad. -/
def Obligations.AddWrapsAndFaultsInOrder : Prop :=
  (∀ (c : Config) (a b : Nat), encode c (.add a b) = [c.opc .add, BitVec.ofNat 8 a, BitVec.ofNat 8 b]) ∧
  (∀ (s : State) (a b : Fin 8), ∃ p : Byte, p.toNat = (s.regs[a].toNat + s.regs[b].toNat) % 256 ∧
    exec (.add a b) s = .next { s with regs := s.regs.set a p, pc := s.pc + 3 }) ∧
  (∀ (s : State) (a b : Nat), 8 ≤ a → Aborts s .register a (exec (.add a b) s)) ∧
  (∀ (s : State) (a b : Nat), a < 8 → 8 ≤ b → Aborts s .register b (exec (.add a b) s))

/-- R141: PUSH takes its register index from memory at `pc + 1`, whatever operand it was passed, and writes that
register at the decremented `sp`, reduced modulo 256; it completes at every `sp`. -/
def Obligations.PushStoresTheRegister : Prop :=
  ∀ (s : State) (passed : Nat) (i : Fin 8), s.pc + 1 < 256 → operandA s = BitVec.ofNat 8 i →
    exec (.push passed) s =
      .next { s with
        sp := (s.sp - 1) % 256
        mem := Memory.write s.mem ((s.sp - 1) % 256).toNat s.regs[i]
        pc := s.pc + 2 }

/-- R142: POP takes its register index from memory at `pc + 1`, loads the byte at `sp` and increments `sp` modulo
256. -/
def Obligations.PopLoadsTheRegister : Prop :=
  ∀ (s : State) (passed : Nat) (i : Fin 8), s.pc + 1 < 256 → operandA s = BitVec.ofNat 8 i →
    0 ≤ s.sp → s.sp ≤ 255 →
    exec (.pop passed) s =
      .next { s with
        regs := s.regs.set i (Memory.read s.mem s.sp.toNat)
        sp := (s.sp + 1) % 256
        pc := s.pc + 2 }

/-- R150: CALL completes at every `sp` from 1 to 256; it writes the return address at the decremented, unreduced `sp`
and transfers to `x[a]`. Wherever it can be fetched (R103) the stored byte is exactly `pc + 2`. -/
def Obligations.CallPushesTheReturnAddress : Prop :=
  ∀ (s : State) (a : Fin 8), 1 ≤ s.sp → s.sp ≤ 256 →
    ∃ r : Byte, (s.pc ≤ 253 → r.toNat = s.pc + 2) ∧
      exec (.call a) s =
        .next { s with
          sp := s.sp - 1
          mem := Memory.write s.mem (s.sp - 1).toNat r
          pc := s.regs[a].toNat }

/-- R151: the encoding of RET, its transfer to the byte at `sp` with an unreduced increment, and its fault. That the
increment stays unreduced, so that `sp` can be 256 and RET then aborts, is kept by the spec's decision D6
(notes/assumptions/8.md), and the recorded address is D12 (notes/assumptions/25.md), each a DESIGN CHOICE. -/
def Obligations.RetTakesTheByteAtSp : Prop :=
  (∀ c : Config, encode c .ret = [c.opc .ret]) ∧
  (∀ s : State, 0 ≤ s.sp → s.sp ≤ 255 →
    exec .ret s = .next { s with pc := (Memory.read s.mem s.sp.toNat).toNat, sp := s.sp + 1 }) ∧
  (∀ s : State, s.sp = 256 → Aborts s .memory 256 (exec .ret s))

/-- R161: CMP completes for every pair of registers, advances by 3, and its flags are those of the unsigned comparison
of `x[a]`, the left side, with `x[b]`. -/
def Obligations.CmpComparesUnsigned : Prop :=
  ∀ (s : State) (a b : Fin 8), ∃ e l g : Flag,
    exec (.cmp a b) s = .next { s with flagE := e, flagL := l, flagG := g, pc := s.pc + 3 } ∧
    e = (if s.regs[a].toNat = s.regs[b].toNat then .one else .zero) ∧
    l = (if s.regs[a].toNat < s.regs[b].toNat then .one else .zero) ∧
    g = (if s.regs[a].toNat > s.regs[b].toNat then .one else .zero)

/-- R162: JMP transfers to the byte in `x[a]`. -/
def Obligations.JmpTransfersToTheRegister : Prop :=
  ∀ (s : State) (a : Fin 8), exec (.jmp a) s = .next { s with pc := s.regs[a].toNat }

/-- R166: taken and not taken, for each value of E; when not taken the register is not read, so any index will do. -/
def Obligations.ConditionalJumpTable : Prop :=
  ∀ s : State,
    (s.flagE = .unset → ∀ a : Nat,
      exec (.jeq a) s = .next { s with pc := s.pc + 2 } ∧ exec (.jne a) s = .next { s with pc := s.pc + 2 }) ∧
    (s.flagE = .zero → (∀ a : Nat, exec (.jeq a) s = .next { s with pc := s.pc + 2 }) ∧
      (∀ a : Fin 8, exec (.jne a) s = .next { s with pc := s.regs[a].toNat })) ∧
    (s.flagE = .one → (∀ a : Fin 8, exec (.jeq a) s = .next { s with pc := s.regs[a].toNat }) ∧
      (∀ a : Nat, exec (.jne a) s = .next { s with pc := s.pc + 2 }))

/-- R160: `compare` sets each flag to 1 exactly when its relation holds and to 0 otherwise, so that exactly one is 1;
it writes all three and nothing else. -/
def Obligations.CompareSetsExactlyOneFlag : Prop :=
  ∀ (va vb : Byte) (s : State),
    let t := compareFlags va vb s
    (t.flagE = .one ↔ va = vb) ∧ (t.flagL = .one ↔ va.toNat < vb.toNat) ∧ (t.flagG = .one ↔ va.toNat > vb.toNat) ∧
    t.flagE ≠ .unset ∧ t.flagL ≠ .unset ∧ t.flagG ≠ .unset ∧
    ((t.flagE = .one ∧ t.flagL = .zero ∧ t.flagG = .zero) ∨ (t.flagE = .zero ∧ t.flagL = .one ∧ t.flagG = .zero) ∨
      (t.flagE = .zero ∧ t.flagL = .zero ∧ t.flagG = .one)) ∧
    t = { s with flagE := t.flagE, flagL := t.flagL, flagG := t.flagG }

/-- R130, R185: asked for any operation but ADD the ALU fails and computes nothing, and a rule that did so would end in
the fault of that name. -/
def Obligations.AluRefusesOtherOperations : Prop :=
  ∀ (s : State) (tag : Nat) (a b : Nat),
    aluApply (.other tag) a b s = .error (.unsupportedOperation tag) ∧
    conclude s (aluApply (.other tag) a b s) = .fault (.unsupportedAluOperation tag)

/-! ### The instructions: faults -/

/-- R183: every place a register index faults, with the offending index as the recorded value (D12;
notes/assumptions/25.md). Three parts are the spec's own decisions, DESIGN CHOICE in the log: that MUL, ADD and CMP name
`a` where `b` is bad too (the fault order D9 of R110 and R188, U16; notes/assumptions/10.md), that POP and CALL raise for
their index only where the stack access is in memory (the same order), and that CALL at `sp` 0 is not among the cases
(D6; notes/assumptions/8.md). -/
def Obligations.BadRegisterIndexAborts : Prop :=
  (∀ (s : State) (a : Nat) (b : Byte), 8 ≤ a → Aborts s .register a (exec (.ldi a b) s)) ∧
  (∀ (s : State) (a : Nat), 8 ≤ a →
    Aborts s .register a (exec (.prn a) s) ∧ Aborts s .register a (exec (.jmp a) s)) ∧
  (∀ (s : State) (a b : Nat), 8 ≤ a → Aborts s .register a (exec (.mul a b) s) ∧
    Aborts s .register a (exec (.add a b) s) ∧ Aborts s .register a (exec (.cmp a b) s)) ∧
  (∀ (s : State) (a b : Nat), a < 8 → 8 ≤ b → Aborts s .register b (exec (.mul a b) s) ∧
    Aborts s .register b (exec (.add a b) s) ∧ Aborts s .register b (exec (.cmp a b) s)) ∧
  (∀ (s : State) (passed : Nat), s.pc + 1 < 256 → 8 ≤ (operandA s).toNat →
    Aborts s .register (operandA s).toNat (exec (.push passed) s)) ∧
  (∀ (s : State) (passed : Nat), s.pc + 1 < 256 → 0 ≤ s.sp → s.sp ≤ 255 → 8 ≤ (operandA s).toNat →
    Aborts s .register (operandA s).toNat (exec (.pop passed) s)) ∧
  (∀ (s : State) (a : Nat), 1 ≤ s.sp → s.sp ≤ 256 → 8 ≤ a → Aborts s .register a (exec (.call a) s)) ∧
  (∀ (s : State) (a : Nat), s.flagE = .one → 8 ≤ a → Aborts s .register a (exec (.jeq a) s)) ∧
  (∀ (s : State) (a : Nat), s.flagE = .zero → 8 ≤ a → Aborts s .register a (exec (.jne a) s))

/-- R182: a stack access outside memory aborts with the address: POP and RET at `sp` (256 in a run), CALL at `sp - 1`
(-1 in a run). Three parts are the spec's own decisions, DESIGN CHOICE in the log: that the address is the recorded value
whatever the register index, so that memory comes before the register, is the fault order D9 of R110 and R188 (U16;
notes/assumptions/10.md); that CALL at `sp` 0 aborts with -1, and that `sp` can be 256, is the reading D6 of R150 (U8;
notes/assumptions/8.md); that an abort records an address is D12 (notes/assumptions/25.md). -/
def Obligations.StackAccessOutsideMemoryAborts : Prop :=
  (∀ (s : State) (passed : Nat), s.pc + 1 < 256 → (s.sp < 0 ∨ 256 ≤ s.sp) →
    Aborts s .memory s.sp (exec (.pop passed) s)) ∧
  (∀ s : State, (s.sp < 0 ∨ 256 ≤ s.sp) → Aborts s .memory s.sp (exec .ret s)) ∧
  (∀ (s : State) (a : Nat), (s.sp ≤ 0 ∨ 257 ≤ s.sp) → Aborts s .memory (s.sp - 1) (exec (.call a) s))

/-- R222: the two ends of memory. With `sp` 0 PUSH writes M[255] and CALL aborts; with 255 POP leaves 0 and RET 256;
with 256 PUSH and CALL continue at 255 and POP and RET abort. The whole asymmetry, with CALL aborting with -1 at `sp` 0
and `sp` reaching 256, is kept by the spec's own decision D6 (R30, R150; C1; the other readings in U8;
notes/assumptions/8.md), a DESIGN CHOICE; that an abort records the address is D12 (notes/assumptions/25.md). -/
def Obligations.StackEndsDiffer : Prop :=
  ∀ (s : State) (passed : Nat) (i : Fin 8), Memory.wf s.mem = true → s.pc + 1 < 256 →
    operandA s = BitVec.ofNat 8 i →
    (s.sp = 0 →
      (∃ t, exec (.push passed) s = .next t ∧ t.sp = 255 ∧ Memory.read t.mem 255 = s.regs[i]) ∧
      Aborts s .memory (-1) (exec (.call i) s)) ∧
    (s.sp = 255 →
      (∃ t, exec (.pop passed) s = .next t ∧ t.sp = 0 ∧ t.regs[i] = Memory.read s.mem 255) ∧
      (∃ t, exec .ret s = .next t ∧ t.sp = 256 ∧ t.pc = (Memory.read s.mem 255).toNat)) ∧
    (s.sp = 256 →
      (∃ t, exec (.push passed) s = .next t ∧ t.sp = 255 ∧ Memory.read t.mem 255 = s.regs[i]) ∧
      (∃ t, exec (.call i) s = .next t ∧ t.sp = 255) ∧
      Aborts s .memory 256 (exec (.pop passed) s) ∧ Aborts s .memory 256 (exec .ret s))

/-! ### The step -/

/-- R100, R105: where the three fetched bytes decode to an instruction, the step is that instruction's meaning at the
same state; nothing is added around it, and the default step is `cycle` at the default parameters. -/
def Obligations.StepRunsTheDecodedInstruction : Prop :=
  (∀ (c : Config) (s : State) (i : Instr), s.run = .running → s.pc ≤ 253 →
    decode c (opcodeAt s) (operandA s) (operandB s) = .ok i → cycle c s = exec i s) ∧
  (∀ s : State, step s = cycle defaultConfig s)

/-- R103: the three fetches succeed exactly at `pc` 0 to 253; at 254, 255 and 256 the step aborts with address 256
whatever the bytes are. That `pc` does not wrap to 0 is the spec's decision D5 (R28; notes/assumptions/7.md), and that
the address is recorded D12 (notes/assumptions/25.md), each a DESIGN CHOICE. -/
def Obligations.FetchNearTheTopAborts : Prop :=
  ∀ (c : Config) (s : State), s.run = .running →
    (s.pc ≤ 253 → fetch s = .ok (opcodeAt s, operandA s, operandB s)) ∧
    (254 ≤ s.pc → s.pc ≤ 256 → Aborts s .memory 256 (cycle c s))

/-- R106, for every `OPC`: an unknown opcode emits its diagnostic, records the cause and halts, nothing else changes and
`pc` is not advanced; at 254 and above the fetch abort comes first and there is no diagnostic. That this abort is a run
state of its own that records the address is D7 and D12 (notes/assumptions/25.md), and that `pc` does not wrap D5
(notes/assumptions/7.md), each a DESIGN CHOICE. -/
def Obligations.UnknownOpcodeHaltsWithDiagnostic : Prop :=
  ∀ (c : Config) (s : State), s.run = .running → (∀ m, c.opc m ≠ opcodeAt s) →
    (s.pc ≤ 253 → cycle c s = .next { s with
      trace := s.trace ++ [.diag (opcodeAt s) s.pc]
      cause := .unknownOpcode (opcodeAt s) s.pc
      run := .halted }) ∧
    (254 ≤ s.pc → s.pc ≤ 256 → Aborts s .memory 256 (cycle c s))

/-- R101: in a terminal state no step changes anything, so no number of steps returns the core to Running. That such a
step answers the same state is the model's form of "no step" (notes/assumptions/2.md). -/
def Obligations.TerminalStatesAreFinal : Prop :=
  ∀ s : State, s.run ≠ .running → (∀ c, cycle c s = .next s) ∧ ∀ k, Host.Core.run Sys2Proof.core k s = .next s

/-- No step faults or is refused: every instruction and every event of the spec has its effect (R100, R180, R185). -/
def Obligations.EveryStepAnswersAState : Prop :=
  ∀ (c : Config) (s : State), ∃ t, cycle c s = .next t

/-- R34, R226: a Running core goes on Running, or stops in one of exactly three ways, told apart by the cause: by the
opcode of HLT, by an opcode of none of the 13, or by an abort. Aborted as a third run state beside Halted is the spec's
decision D7 (notes/assumptions/25.md), a DESIGN CHOICE. -/
def Obligations.RunEndsInThreeWays : Prop :=
  ∀ (c : Config) (s t : State), Function.Injective c.opc → s.run = .running → cycle c s = .next t →
    (t.run = .running ∧ t.cause = s.cause ∧ opcodeAt s ≠ c.opc .hlt ∧ ∃ m, c.opc m = opcodeAt s) ∨
    (t.run = .halted ∧ t.cause = .hlt ∧ opcodeAt s = c.opc .hlt) ∨
    (t.run = .halted ∧ t.cause = .unknownOpcode (opcodeAt s) s.pc ∧ ∀ m, c.opc m ≠ opcodeAt s) ∨
    (t.run = .aborted ∧ ∃ kind value, t.cause = .outOfRange kind value)

/-- R36: a step appends at most one event and removes none; an output comes only from PRN, a diagnostic only with the
halt of an unknown opcode. -/
def Obligations.TraceOnlyGrows : Prop :=
  ∀ (c : Config) (s t : State), cycle c s = .next t →
    t.trace = s.trace ∨
    (∃ v, t.trace = s.trace ++ [.out v] ∧ s.run = .running ∧ opcodeAt s = c.opc .prn ∧ t.run = .running) ∨
    (t.trace = s.trace ++ [.diag (opcodeAt s) s.pc] ∧ s.run = .running ∧ t.run = .halted ∧
      t.cause = .unknownOpcode (opcodeAt s) s.pc)

/-- R141, R142, for every injective `OPC`: the re-read of PUSH and POP gives the operand byte the step fetched, so the
step pushes, or pops to, the register that byte names. -/
def Obligations.RereadGivesTheFetchedOperand : Prop :=
  ∀ (c : Config) (s : State) (i : Fin 8), Function.Injective c.opc → s.run = .running → s.pc ≤ 253 →
    operandA s = BitVec.ofNat 8 i → Memory.wf s.mem = true →
    (opcodeAt s = c.opc .push →
      ∃ t, cycle c s = .next t ∧ Memory.read t.mem (pushSp s).toNat = s.regs[i] ∧ t.sp = (s.sp - 1) % 256 ∧
        t.pc = s.pc + 2) ∧
    (opcodeAt s = c.opc .pop → 0 ≤ s.sp → s.sp ≤ 255 →
      ∃ t, cycle c s = .next t ∧ t.regs[i] = Memory.read s.mem s.sp.toNat ∧ t.sp = (s.sp + 1) % 256 ∧
        t.pc = s.pc + 2)

/-- R63: a byte stored by PUSH or CALL is what the very next fetch reads there. -/
def Obligations.StoreIsSeenByTheNextFetch : Prop :=
  ∀ (s t : State) (passed : Nat), Memory.wf s.mem = true → t.pc ≤ 253 →
    (CompletesWith t (exec (.push passed) s) → (t.pc : Int) = pushSp s → ∀ i : Fin 8, operandA s = BitVec.ofNat 8 i →
      fetch t = .ok (s.regs[i], operandA t, operandB t)) ∧
    (CompletesWith t (exec (.call passed) s) → (t.pc : Int) = callSp s →
      fetch t = .ok (returnAddress s, operandA t, operandB t))

/-- The host's placing of an instruction word (notes/assumptions/16.md, 17.md): the very next step runs exactly the
instruction the decoder reads from the word. -/
def Obligations.PlacedWordIsRunNext : Prop :=
  ∀ (s : State) (nbits w : Nat) (i : Instr), Memory.wf s.mem = true → decodeTableWord nbits w = some i →
    step (s.withFetchWord nbits w) = exec i (s.withFetchWord nbits w)

/-! ### Frames and whole-machine rules -/

/-- R121, R131, R132, R25: what LDI, MUL and ADD leave unchanged: every register but the destination, every byte of
memory, `sp`, the flags, run state, cause and trace. -/
def Obligations.RegisterWritersFrame : Prop :=
  ∀ (i : Instr) (a b : Nat) (imm : Byte) (s t : State),
    i = .ldi a imm ∨ i = .mul a b ∨ i = .add a b → CompletesWith t (exec i s) →
    (∀ j : Fin 8, j.val ≠ a → t.regs[j] = s.regs[j]) ∧ SameMemory s t ∧ t.sp = s.sp ∧ SameFlags s t ∧ SameRecord s t

/-- R141, R150: what PUSH and CALL leave unchanged: every register, the flags, run state, cause and trace, and every
byte of memory but the one at the address they compute, which holds the value stored. -/
def Obligations.StackWritersFrame : Prop :=
  ∀ (passed : Nat) (s t : State),
    (CompletesWith t (exec (.push passed) s) → ∀ addr : Int, pushSp s = addr →
      (∀ k : Nat, (k : Int) ≠ addr → Memory.read t.mem k = Memory.read s.mem k) ∧ 0 ≤ addr ∧ addr < 256 ∧
      (Memory.wf s.mem = true → ∀ i : Fin 8, operandA s = BitVec.ofNat 8 i →
        Memory.read t.mem addr.toNat = s.regs[i]) ∧
      t.sp = addr ∧ SameRegs s t ∧ SameFlags s t ∧ SameRecord s t) ∧
    (CompletesWith t (exec (.call passed) s) → ∀ addr : Int, callSp s = addr →
      (∀ k : Nat, (k : Int) ≠ addr → Memory.read t.mem k = Memory.read s.mem k) ∧ 0 ≤ addr ∧ addr < 256 ∧
      (Memory.wf s.mem = true → Memory.read t.mem addr.toNat = returnAddress s) ∧
      t.sp = addr ∧ SameRegs s t ∧ SameFlags s t ∧ SameRecord s t)

/-- R142, R151: what POP and RET leave unchanged: every byte of memory, the flags, run state, cause and trace, and every
register but POP's destination, the one its re-read operand byte names. RET's unreduced `sp` is kept by D6
(notes/assumptions/8.md), a DESIGN CHOICE. -/
def Obligations.StackReadersFrame : Prop :=
  ∀ (passed : Nat) (s t : State),
    (CompletesWith t (exec (.pop passed) s) →
      (∀ j : Fin 8, j.val ≠ (operandA s).toNat → t.regs[j] = s.regs[j]) ∧ t.sp = (s.sp + 1) % 256 ∧
      SameMemory s t ∧ SameFlags s t ∧ SameRecord s t) ∧
    (CompletesWith t (exec .ret s) →
      SameRegs s t ∧ t.sp = s.sp + 1 ∧ SameMemory s t ∧ SameFlags s t ∧ SameRecord s t)

/-- R122, R161 to R164: PRN, CMP, JMP, JEQ and JNE leave every register, every byte of memory, `sp`, run state and cause
unchanged; the flags but for CMP, and the trace but for PRN. -/
def Obligations.NonStoringFrame : Prop :=
  ∀ (i : Instr) (a b : Nat) (s t : State),
    i = .prn a ∨ i = .cmp a b ∨ i = .jmp a ∨ i = .jeq a ∨ i = .jne a → CompletesWith t (exec i s) →
    SameRegs s t ∧ SameMemory s t ∧ t.sp = s.sp ∧ t.run = s.run ∧ t.cause = s.cause ∧
    (i ≠ .cmp a b → SameFlags s t) ∧ (i ≠ .prn a → t.trace = s.trace)

/-- R31: the new `sp` of every instruction: reduced modulo 256 by PUSH and POP, not by CALL and RET, unchanged by all
others. The asymmetry is kept by the spec's decision D6 (C1, U8; notes/assumptions/8.md), a DESIGN CHOICE. -/
def Obligations.StackPointerTable : Prop :=
  ∀ (i : Instr) (s t : State), CompletesWith t (exec i s) →
    t.sp = match i.mnemonic with
      | .push => (s.sp - 1) % 256
      | .pop => (s.sp + 1) % 256
      | .call => s.sp - 1
      | .ret => s.sp + 1
      | _ => s.sp

/-- R33: no instruction but CMP writes a flag. -/
def Obligations.OnlyCmpWritesFlags : Prop :=
  ∀ (i : Instr) (s t : State), i.mnemonic ≠ .cmp → CompletesWith t (exec i s) → SameFlags s t

/-- R51: no instruction but PUSH and CALL writes memory. -/
def Obligations.OnlyPushAndCallWriteMemory : Prop :=
  ∀ (i : Instr) (s t : State), i.mnemonic ≠ .push → i.mnemonic ≠ .call → CompletesWith t (exec i s) → SameMemory s t

/-- R25: no instruction but LDI, MUL, ADD and POP writes a general register. -/
def Obligations.OnlyFourInstructionsWriteRegisters : Prop :=
  ∀ (i : Instr) (s t : State), i.mnemonic ∉ [Mnemonic.ldi, .mul, .add, .pop] → CompletesWith t (exec i s) →
    SameRegs s t

/-- R107, R108: an instruction that is no control transfer advances `pc` by its width, never reduced. HLT is left out:
no claim names its `pc` (notes/assumptions/9.md). JEQ and JNE are sequential when not taken. -/
def Obligations.SequentialInstructionsAdvanceByWidth : Prop :=
  ∀ (i : Instr) (s t : State), i.mnemonic ∉ [Mnemonic.hlt, .call, .ret, .jmp] →
    (i.mnemonic = .jeq → s.flagE ≠ .one) → (i.mnemonic = .jne → s.flagE ≠ .zero) →
    CompletesWith t (exec i s) → t.pc = s.pc + i.mnemonic.width

/-- R165: no instruction reads L or G: from states that differ in them alone, an instruction completes alike, and
carries the difference along unless it is CMP, which leaves none. -/
def Obligations.LessAndGreaterAreNeverRead : Prop :=
  ∀ (i : Instr) (s t : State) (l g : Flag), CompletesWith t (exec i s) →
    exec i { s with flagL := l, flagG := g } =
      .next (if i.mnemonic = .cmp then t else { t with flagL := l, flagG := g })

/-- R143: PUSH of a register and POP of the same register, one after the other, restore the register file and, from
`sp` 0 to 255, the stack pointer; from 256 `sp` ends at 0. The premises are that both instructions' operand bytes name
the register and that the push does not overwrite the operand byte of the pop. -/
def Obligations.PushPopRoundTrip : Prop :=
  ∀ (s : State) (r : Fin 8), Memory.wf s.mem = true → s.pc + 3 < 256 → 0 ≤ s.sp → s.sp ≤ 256 →
    operandA s = BitVec.ofNat 8 r → Memory.read s.mem (s.pc + 3) = BitVec.ofNat 8 r →
    pushSp s ≠ ((s.pc + 3 : Nat) : Int) →
    ∃ t u, exec (.push r) s = .next t ∧ exec (.pop r) t = .next u ∧ u.regs = s.regs ∧
      (s.sp ≤ 255 → u.sp = s.sp) ∧ (s.sp = 256 → u.sp = 0)

/-- R152: a RET executed later, with `sp` as the CALL left it and that cell unchanged, returns to the byte after the
CALL and restores `sp`. That this holds at 256, an `sp` RET restores unreduced, rests on the spec's decision D6
(notes/assumptions/8.md), a DESIGN CHOICE. -/
def Obligations.CallRetRoundTrip : Prop :=
  ∀ (s : State) (a : Fin 8), Memory.wf s.mem = true → s.pc ≤ 253 → 1 ≤ s.sp → s.sp ≤ 256 →
    ∃ t, exec (.call a) s = .next t ∧
      ∀ u : State, u.sp = t.sp → Memory.read u.mem u.sp.toNat = Memory.read t.mem t.sp.toNat →
        ∃ w, exec .ret u = .next w ∧ w.pc = s.pc + 2 ∧ w.sp = s.sp

/-! ### The invariant -/

/-- The state after reset meets the invariant (R39). -/
def Obligations.ResetMeetsTheInvariant : Prop := State.Inv State.reset

/-- Every loaded core meets the invariant before its first step (R39, R212), for every legal choice of parameters. -/
def Obligations.LoadedCoresMeetTheInvariant : Prop :=
  ∀ (c : Config) (image : List Byte) (fits : image.length ≤ 256), resetLegal c →
    State.Inv (State.load image fits (State.resetOf c))

/-- R28, R30, R33, R35, R36, R182, R183: from EVERY state that meets the invariant, reached by a run or not, and for
every parameters, a step gives a state that meets it: memory stays canonical, `pc` and `sp` stay within 0 to 256, the
flags stay unset or one-hot, the cause tells the run state and records only the values the spec lists, and a diagnostic
is only ever the last event. The ranges of `pc` and `sp` are the spec's decisions D5 and D6 (notes/assumptions/7.md,
8.md), Aborted and its recorded values D7 and D12 (notes/assumptions/25.md), each a DESIGN CHOICE. -/
def Obligations.StepKeepsTheInvariant : Prop :=
  ∀ (c : Config) (s t : State), State.Inv s → cycle c s = .next t → State.Inv t

/-- The same over every run: each state a loaded core reaches meets the invariant. -/
def Obligations.ReachableStatesMeetTheInvariant : Prop :=
  ∀ (c : Config), resetLegal c → ∀ s : State, Reachable c s → State.Inv s
end

