-- ==== Sys2Proof/Laws/Encoding.lean ====
section
/-! SUPPORT. The opcode map and the decoder: what `resolve` answers (30_encoding.md R86, 40_fetch_dispatch.md R104,
R105), and the decoder's spec lemmas. -/

namespace Sys2Proof

theorem mem_all (m : Mnemonic) : m ∈ Mnemonic.all := by cases m <;> decide

/-- A resolved opcode byte is the `OPC` value of its mnemonic. -/
theorem opc_of_resolve {c : Config} {op : Byte} {m : Mnemonic} (h : resolve c op = some m) : c.opc m = op := by
  have := List.find?_some h
  simpa using this

/-- For an injective `OPC`, the opcode byte of a mnemonic resolves to it. -/
theorem resolve_opc {c : Config} (hc : Function.Injective c.opc) (m : Mnemonic) : resolve c (c.opc m) = some m := by
  cases h : resolve c (c.opc m) with
  | none =>
    have := List.find?_eq_none.mp h m (mem_all m)
    simp at this
  | some m' => rw [hc (opc_of_resolve h)]

/-- An opcode byte is unknown exactly when it is the `OPC` value of no mnemonic (R88). -/
theorem resolve_eq_none {c : Config} {op : Byte} : resolve c op = none ↔ ∀ m, c.opc m ≠ op := by
  unfold resolve
  rw [List.find?_eq_none]
  constructor
  · intro h m
    simpa using h m (mem_all m)
  · intro h m _
    simpa using h m

/-- The default `OPC` is injective (D1). -/
theorem defaultOpc_injective : Function.Injective defaultConfig.opc := by
  intro m n h
  cases m <;> cases n <;> first | rfl | (exact absurd h (by decide))

/-- Everything the step's decoder can do. -/
theorem decode_cases (c : Config) (op a b : Byte) :
    (∃ m, resolve c op = some m ∧ decode c op a b = .ok (m.withOperands a b)) ∨
    (resolve c op = none ∧ decode c op a b = .error (.unknownOpcode op)) := by
  unfold decode
  cases resolve c op with
  | none => exact .inr ⟨rfl, rfl⟩
  | some m => exact .inl ⟨m, rfl, rfl⟩

@[simp] theorem mnemonic_withOperands (m : Mnemonic) (a b : Byte) : (m.withOperands a b).mnemonic = m := by
  cases m <;> rfl

/-- What is decoded is well formed: its register indices are bytes. -/
theorem wellFormed_withOperands (m : Mnemonic) (a b : Byte) : (m.withOperands a b).wellFormed = true := by
  have ha := a.isLt
  have hb := b.isLt
  cases m <;> simp [Mnemonic.withOperands, Instr.wellFormed, isOperandByte] <;> omega

/-- On three bytes the list decoder is the step's decoder, and leaves what the width leaves. -/
theorem decodeBytes_cons (c : Config) (op a b : Byte) (rest : List Byte) :
    decodeBytes c (op :: a :: b :: rest) =
      match resolve c op with
      | none => .error (.unknownOpcode op)
      | some m => .ok (m.withOperands a b, (a :: b :: rest).drop (m.width - 1)) := by
  cases h : resolve c op with
  | none => simp [decodeBytes, h]
  | some m =>
    have hw : m.width ≤ 3 := by cases m <;> decide
    have hl : ¬ (rest.length + 1 + 1 + 1 < m.width) := by omega
    simp [decodeBytes, h, hl]

end Sys2Proof
end

