-- ==== Sys2Proof/Laws/State.lean ====
section
/-! SUPPORT. One lemma per field per named update of the state, true by rfl, so that no proof unfolds an update. -/

namespace Sys2Proof.Machine

/-! ### advance -/

@[simp] theorem advance_mem (n : Nat) (s : State) : (advance n s).mem = s.mem := rfl
@[simp] theorem advance_regs (n : Nat) (s : State) : (advance n s).regs = s.regs := rfl
@[simp] theorem advance_pc (n : Nat) (s : State) : (advance n s).pc = s.pc + n := rfl
@[simp] theorem advance_sp (n : Nat) (s : State) : (advance n s).sp = s.sp := rfl
@[simp] theorem advance_flagE (n : Nat) (s : State) : (advance n s).flagE = s.flagE := rfl
@[simp] theorem advance_flagL (n : Nat) (s : State) : (advance n s).flagL = s.flagL := rfl
@[simp] theorem advance_flagG (n : Nat) (s : State) : (advance n s).flagG = s.flagG := rfl
@[simp] theorem advance_run (n : Nat) (s : State) : (advance n s).run = s.run := rfl
@[simp] theorem advance_cause (n : Nat) (s : State) : (advance n s).cause = s.cause := rfl
@[simp] theorem advance_trace (n : Nat) (s : State) : (advance n s).trace = s.trace := rfl

/-! ### jump -/

@[simp] theorem jump_mem (t : Byte) (s : State) : (jump t s).mem = s.mem := rfl
@[simp] theorem jump_regs (t : Byte) (s : State) : (jump t s).regs = s.regs := rfl
@[simp] theorem jump_pc (t : Byte) (s : State) : (jump t s).pc = t.toNat := rfl
@[simp] theorem jump_sp (t : Byte) (s : State) : (jump t s).sp = s.sp := rfl
@[simp] theorem jump_flagE (t : Byte) (s : State) : (jump t s).flagE = s.flagE := rfl
@[simp] theorem jump_flagL (t : Byte) (s : State) : (jump t s).flagL = s.flagL := rfl
@[simp] theorem jump_flagG (t : Byte) (s : State) : (jump t s).flagG = s.flagG := rfl
@[simp] theorem jump_run (t : Byte) (s : State) : (jump t s).run = s.run := rfl
@[simp] theorem jump_cause (t : Byte) (s : State) : (jump t s).cause = s.cause := rfl
@[simp] theorem jump_trace (t : Byte) (s : State) : (jump t s).trace = s.trace := rfl

/-! ### setSp -/

@[simp] theorem setSp_mem (v : Int) (s : State) : (setSp v s).mem = s.mem := rfl
@[simp] theorem setSp_regs (v : Int) (s : State) : (setSp v s).regs = s.regs := rfl
@[simp] theorem setSp_pc (v : Int) (s : State) : (setSp v s).pc = s.pc := rfl
@[simp] theorem setSp_sp (v : Int) (s : State) : (setSp v s).sp = v := rfl
@[simp] theorem setSp_flagE (v : Int) (s : State) : (setSp v s).flagE = s.flagE := rfl
@[simp] theorem setSp_flagL (v : Int) (s : State) : (setSp v s).flagL = s.flagL := rfl
@[simp] theorem setSp_flagG (v : Int) (s : State) : (setSp v s).flagG = s.flagG := rfl
@[simp] theorem setSp_run (v : Int) (s : State) : (setSp v s).run = s.run := rfl
@[simp] theorem setSp_cause (v : Int) (s : State) : (setSp v s).cause = s.cause := rfl
@[simp] theorem setSp_trace (v : Int) (s : State) : (setSp v s).trace = s.trace := rfl

/-! ### emit -/

@[simp] theorem emit_mem (ev : Event) (s : State) : (emit ev s).mem = s.mem := rfl
@[simp] theorem emit_regs (ev : Event) (s : State) : (emit ev s).regs = s.regs := rfl
@[simp] theorem emit_pc (ev : Event) (s : State) : (emit ev s).pc = s.pc := rfl
@[simp] theorem emit_sp (ev : Event) (s : State) : (emit ev s).sp = s.sp := rfl
@[simp] theorem emit_flagE (ev : Event) (s : State) : (emit ev s).flagE = s.flagE := rfl
@[simp] theorem emit_flagL (ev : Event) (s : State) : (emit ev s).flagL = s.flagL := rfl
@[simp] theorem emit_flagG (ev : Event) (s : State) : (emit ev s).flagG = s.flagG := rfl
@[simp] theorem emit_run (ev : Event) (s : State) : (emit ev s).run = s.run := rfl
@[simp] theorem emit_cause (ev : Event) (s : State) : (emit ev s).cause = s.cause := rfl
@[simp] theorem emit_trace (ev : Event) (s : State) : (emit ev s).trace = s.trace ++ [ev] := rfl

/-! ### halt -/

@[simp] theorem halt_mem (s : State) : (halt s).mem = s.mem := rfl
@[simp] theorem halt_regs (s : State) : (halt s).regs = s.regs := rfl
@[simp] theorem halt_pc (s : State) : (halt s).pc = s.pc := rfl
@[simp] theorem halt_sp (s : State) : (halt s).sp = s.sp := rfl
@[simp] theorem halt_flagE (s : State) : (halt s).flagE = s.flagE := rfl
@[simp] theorem halt_flagL (s : State) : (halt s).flagL = s.flagL := rfl
@[simp] theorem halt_flagG (s : State) : (halt s).flagG = s.flagG := rfl
@[simp] theorem halt_run (s : State) : (halt s).run = .halted := rfl
@[simp] theorem halt_cause (s : State) : (halt s).cause = .hlt := rfl
@[simp] theorem halt_trace (s : State) : (halt s).trace = s.trace := rfl

/-! ### compareFlags -/

@[simp] theorem compareFlags_mem (va vb : Byte) (s : State) : (compareFlags va vb s).mem = s.mem := rfl
@[simp] theorem compareFlags_regs (va vb : Byte) (s : State) : (compareFlags va vb s).regs = s.regs := rfl
@[simp] theorem compareFlags_pc (va vb : Byte) (s : State) : (compareFlags va vb s).pc = s.pc := rfl
@[simp] theorem compareFlags_sp (va vb : Byte) (s : State) : (compareFlags va vb s).sp = s.sp := rfl
@[simp] theorem compareFlags_flagE (va vb : Byte) (s : State) : (compareFlags va vb s).flagE = flagOf (decide (va.toNat = vb.toNat)) := rfl
@[simp] theorem compareFlags_flagL (va vb : Byte) (s : State) : (compareFlags va vb s).flagL = flagOf (decide (va.toNat < vb.toNat)) := rfl
@[simp] theorem compareFlags_flagG (va vb : Byte) (s : State) : (compareFlags va vb s).flagG = flagOf (decide (va.toNat > vb.toNat)) := rfl
@[simp] theorem compareFlags_run (va vb : Byte) (s : State) : (compareFlags va vb s).run = s.run := rfl
@[simp] theorem compareFlags_cause (va vb : Byte) (s : State) : (compareFlags va vb s).cause = s.cause := rfl
@[simp] theorem compareFlags_trace (va vb : Byte) (s : State) : (compareFlags va vb s).trace = s.trace := rfl

/-! ### unknownOpcode -/

@[simp] theorem unknownOpcode_mem (op : Byte) (s : State) : (unknownOpcode op s).mem = s.mem := rfl
@[simp] theorem unknownOpcode_regs (op : Byte) (s : State) : (unknownOpcode op s).regs = s.regs := rfl
@[simp] theorem unknownOpcode_pc (op : Byte) (s : State) : (unknownOpcode op s).pc = s.pc := rfl
@[simp] theorem unknownOpcode_sp (op : Byte) (s : State) : (unknownOpcode op s).sp = s.sp := rfl
@[simp] theorem unknownOpcode_flagE (op : Byte) (s : State) : (unknownOpcode op s).flagE = s.flagE := rfl
@[simp] theorem unknownOpcode_flagL (op : Byte) (s : State) : (unknownOpcode op s).flagL = s.flagL := rfl
@[simp] theorem unknownOpcode_flagG (op : Byte) (s : State) : (unknownOpcode op s).flagG = s.flagG := rfl
@[simp] theorem unknownOpcode_run (op : Byte) (s : State) : (unknownOpcode op s).run = .halted := rfl
@[simp] theorem unknownOpcode_cause (op : Byte) (s : State) : (unknownOpcode op s).cause = .unknownOpcode op s.pc := rfl
@[simp] theorem unknownOpcode_trace (op : Byte) (s : State) : (unknownOpcode op s).trace = s.trace ++ [.diag op s.pc] := rfl

/-! ### load -/

@[simp] theorem load_mem (image : List Byte) (h : image.length ≤ 256) (s : State) : (State.load image h s).mem = Memory.ofBytes (fun a => image.getD a unlistedByte) := rfl
@[simp] theorem load_regs (image : List Byte) (h : image.length ≤ 256) (s : State) : (State.load image h s).regs = s.regs := rfl
@[simp] theorem load_pc (image : List Byte) (h : image.length ≤ 256) (s : State) : (State.load image h s).pc = s.pc := rfl
@[simp] theorem load_sp (image : List Byte) (h : image.length ≤ 256) (s : State) : (State.load image h s).sp = s.sp := rfl
@[simp] theorem load_flagE (image : List Byte) (h : image.length ≤ 256) (s : State) : (State.load image h s).flagE = s.flagE := rfl
@[simp] theorem load_flagL (image : List Byte) (h : image.length ≤ 256) (s : State) : (State.load image h s).flagL = s.flagL := rfl
@[simp] theorem load_flagG (image : List Byte) (h : image.length ≤ 256) (s : State) : (State.load image h s).flagG = s.flagG := rfl
@[simp] theorem load_run (image : List Byte) (h : image.length ≤ 256) (s : State) : (State.load image h s).run = s.run := rfl
@[simp] theorem load_cause (image : List Byte) (h : image.length ≤ 256) (s : State) : (State.load image h s).cause = s.cause := rfl
@[simp] theorem load_trace (image : List Byte) (h : image.length ≤ 256) (s : State) : (State.load image h s).trace = s.trace := rfl

/-! ### abort: what R181 fixes, and the form of memory -/

@[simp] theorem abort_run (k : AccessKind) (v : Int) (s : State) : (abort k v s).run = .aborted := rfl
@[simp] theorem abort_cause (k : AccessKind) (v : Int) (s : State) : (abort k v s).cause = .outOfRange k v := rfl
@[simp] theorem abort_trace (k : AccessKind) (v : Int) (s : State) : (abort k v s).trace = s.trace := rfl
@[simp] theorem abort_mem (k : AccessKind) (v : Int) (s : State) : (abort k v s).mem = Memory.ofBytes (Config.abortedCell s) := rfl

/-! ### resetOf -/

@[simp] theorem resetOf_mem (c : Config) : (State.resetOf c).mem = [] := rfl
@[simp] theorem resetOf_regs (c : Config) : (State.resetOf c).regs = #v[c.resetGpr, c.resetGpr, c.resetGpr, c.resetGpr, c.resetGpr, c.resetGpr, c.resetGpr, resetX7] := rfl
@[simp] theorem resetOf_pc (c : Config) : (State.resetOf c).pc = c.pcReset := rfl
@[simp] theorem resetOf_sp (c : Config) : (State.resetOf c).sp = c.spReset := rfl
@[simp] theorem resetOf_flagE (c : Config) : (State.resetOf c).flagE = .unset := rfl
@[simp] theorem resetOf_flagL (c : Config) : (State.resetOf c).flagL = .unset := rfl
@[simp] theorem resetOf_flagG (c : Config) : (State.resetOf c).flagG = .unset := rfl
@[simp] theorem resetOf_run (c : Config) : (State.resetOf c).run = .running := rfl
@[simp] theorem resetOf_cause (c : Config) : (State.resetOf c).cause = .none := rfl
@[simp] theorem resetOf_trace (c : Config) : (State.resetOf c).trace = [] := rfl

end Sys2Proof.Machine
end

