-- ==== Sys2Proof/Laws/Memory.lean ====
section
/-! SUPPORT. The memory array: read after write, the canonical form and that every memory operation keeps it. -/

namespace Sys2Proof.Machine

@[simp] theorem read_nil (a : Nat) : Memory.read [] a = 0 := rfl

/-- A write leaves every other address alone, in any list. -/
theorem read_write_ne {a b : Nat} (h : b ≠ a) (v : Byte) (m : Memory) :
    Memory.read (Memory.write m a v) b = Memory.read m b := by
  induction m with
  | nil =>
    simp only [Memory.write]
    split
    · rfl
    · simp [Memory.read, Ne.symm h, unlistedByte]
  | cons c rest ih =>
    obtain ⟨k, w⟩ := c
    simp only [Memory.write]
    split
    · split
      · rfl
      · simp [Memory.read, Ne.symm h]
    · split
      · rename_i hk
        subst hk
        split <;> simp [Memory.read, Ne.symm h]
      · simp [Memory.read, ih]

/-- Below the least listed address memory reads 0. -/
theorem read_below {m : Memory} {lo a : Nat} (h : Memory.wfFrom lo m = true) (ha : a < lo) :
    Memory.read m a = 0 := by
  induction m generalizing lo with
  | nil => rfl
  | cons c rest ih =>
    obtain ⟨k, w⟩ := c
    simp only [Memory.wfFrom, Bool.and_eq_true, decide_eq_true_eq] at h
    obtain ⟨⟨⟨h1, _⟩, _⟩, h4⟩ := h
    simp only [Memory.read]
    rw [if_neg (by omega)]
    exact ih h4 (by omega)

/-- A canonical memory reads 0 at and above 256: there are 256 cells. -/
theorem read_above {m : Memory} {lo a : Nat} (h : Memory.wfFrom lo m = true) (ha : 256 ≤ a) :
    Memory.read m a = 0 := by
  induction m generalizing lo with
  | nil => rfl
  | cons c rest ih =>
    obtain ⟨k, w⟩ := c
    simp only [Memory.wfFrom, Bool.and_eq_true, decide_eq_true_eq] at h
    obtain ⟨⟨⟨_, h2⟩, _⟩, h4⟩ := h
    simp only [Memory.read]
    rw [if_neg (by omega)]
    exact ih h4

theorem read_write_same_from {m : Memory} {lo : Nat} (h : Memory.wfFrom lo m = true) (a : Nat) (v : Byte) :
    Memory.read (Memory.write m a v) a = v := by
  induction m generalizing lo with
  | nil =>
    simp only [Memory.write]
    split
    · rename_i hv
      simp [hv, unlistedByte]
    · simp [Memory.read]
  | cons c rest ih =>
    obtain ⟨k, w⟩ := c
    simp only [Memory.wfFrom, Bool.and_eq_true, decide_eq_true_eq] at h
    obtain ⟨⟨⟨_, _⟩, _⟩, h4⟩ := h
    simp only [Memory.write]
    split
    · split
      · rename_i hak hv
        simp only [Memory.read]
        rw [if_neg (by omega), read_below h4 (by omega), hv]
        rfl
      · simp [Memory.read]
    · split
      · rename_i hak
        split
        · rename_i hv
          rw [read_below h4 (by omega), hv]
          rfl
        · simp [Memory.read]
      · simp only [Memory.read]
        rw [if_neg (by omega)]
        exact ih h4

/-- A read after a write to the same address gives the byte written. -/
theorem read_write_same {m : Memory} (h : Memory.wf m = true) (a : Nat) (v : Byte) :
    Memory.read (Memory.write m a v) a = v := read_write_same_from h a v

theorem wfFrom_mono {m : Memory} {lo lo' : Nat} (h : Memory.wfFrom lo m = true) (hle : lo' ≤ lo) :
    Memory.wfFrom lo' m = true := by
  cases m with
  | nil => rfl
  | cons c rest =>
    obtain ⟨k, w⟩ := c
    simp only [Memory.wfFrom, Bool.and_eq_true, decide_eq_true_eq] at h ⊢
    exact ⟨⟨⟨by omega, h.1.1.2⟩, h.1.2⟩, h.2⟩

theorem wfFrom_write {m : Memory} {lo a : Nat} (h : Memory.wfFrom lo m = true) (hlo : lo ≤ a) (ha : a < 256)
    (v : Byte) : Memory.wfFrom lo (Memory.write m a v) = true := by
  induction m generalizing lo with
  | nil =>
    simp only [Memory.write]
    split
    · rfl
    · rename_i hv
      simp [Memory.wfFrom, hlo, ha, hv]
  | cons c rest ih =>
    obtain ⟨k, w⟩ := c
    have h' := h
    simp only [Memory.wfFrom, Bool.and_eq_true, decide_eq_true_eq] at h
    obtain ⟨⟨⟨h1, h2⟩, h3⟩, h4⟩ := h
    simp only [Memory.write]
    split
    · split
      · exact h'
      · rename_i hak hv
        simp only [Memory.wfFrom, Bool.and_eq_true, decide_eq_true_eq]
        exact ⟨⟨⟨hlo, ha⟩, hv⟩, ⟨⟨by omega, h2⟩, h3⟩, h4⟩
    · split
      · rename_i hak
        split
        · exact wfFrom_mono h4 (by omega)
        · rename_i hv
          simp only [Memory.wfFrom, Bool.and_eq_true, decide_eq_true_eq]
          exact ⟨⟨⟨hlo, ha⟩, hv⟩, hak ▸ h4⟩
      · simp only [Memory.wfFrom, Bool.and_eq_true, decide_eq_true_eq]
        exact ⟨⟨⟨h1, h2⟩, h3⟩, ih h4 (by omega)⟩

/-- A write inside the address space keeps the canonical form. -/
theorem wf_write {m : Memory} (h : Memory.wf m = true) {a : Nat} (ha : a < 256) (v : Byte) :
    Memory.wf (Memory.write m a v) = true := wfFrom_write h (Nat.zero_le _) ha v

theorem wfFrom_ofBytesFrom (f : Nat → Byte) (n start : Nat) (h : start + n ≤ 256) :
    Memory.wfFrom start (Memory.ofBytesFrom f start n) = true := by
  induction n generalizing start with
  | zero => rfl
  | succ n ih =>
    simp only [Memory.ofBytesFrom]
    split
    · exact wfFrom_mono (ih (start + 1) (by omega)) (by omega)
    · rename_i hv
      simp only [Memory.wfFrom, Bool.and_eq_true, decide_eq_true_eq]
      exact ⟨⟨⟨Nat.le_refl _, by omega⟩, hv⟩, ih (start + 1) (by omega)⟩

/-- A memory made of 256 bytes is canonical. -/
@[simp] theorem wf_ofBytes (f : Nat → Byte) : Memory.wf (Memory.ofBytes f) = true :=
  wfFrom_ofBytesFrom f 256 0 (by omega)

theorem read_ofBytesFrom (f : Nat → Byte) (n start a : Nat) (h1 : start ≤ a) (h2 : a < start + n) :
    Memory.read (Memory.ofBytesFrom f start n) a = f a := by
  induction n generalizing start with
  | zero => omega
  | succ n ih =>
    by_cases hsa : start = a
    · subst hsa
      simp only [Memory.ofBytesFrom]
      split
      · rename_i hv
        rw [hv]
        exact lookup_low n (start + 1) start (by omega)
      · simp [Memory.read]
    · simp only [Memory.ofBytesFrom]
      split
      · exact ih (start + 1) (by omega) (by omega)
      · simp only [Memory.read]
        rw [if_neg hsa]
        exact ih (start + 1) (by omega) (by omega)
where
  lookup_low (n lo b : Nat) (h : b < lo) : Memory.read (Memory.ofBytesFrom f lo n) b = unlistedByte := by
    induction n generalizing lo with
    | zero => rfl
    | succ n ih =>
      simp only [Memory.ofBytesFrom]
      split
      · exact ih (lo + 1) (by omega)
      · simp only [Memory.read]
        rw [if_neg (by omega)]
        exact ih (lo + 1) (by omega)

/-- Cell `a` of a memory made of 256 bytes holds byte `a`. -/
theorem read_ofBytes (f : Nat → Byte) {a : Nat} (h : a < 256) : Memory.read (Memory.ofBytes f) a = f a :=
  read_ofBytesFrom f 256 0 a (Nat.zero_le _) (by omega)

/-! ### The controller -/

/-- Everything `memRead` can do. -/
theorem memRead_cases (addr : Int) (s : State) :
    (0 ≤ addr ∧ addr < 256 ∧ memRead addr s = .ok (Memory.read s.mem addr.toNat)) ∨
    (¬ (0 ≤ addr ∧ addr < 256) ∧ memRead addr s = .error (.outOfRange .memory addr)) := by
  unfold memRead
  split
  · rename_i h
    exact .inl ⟨h.1, h.2, rfl⟩
  · rename_i h
    exact .inr ⟨h, rfl⟩

theorem memRead_in {addr : Int} (h0 : 0 ≤ addr) (h1 : addr < 256) (s : State) :
    memRead addr s = .ok (Memory.read s.mem addr.toNat) := if_pos ⟨h0, h1⟩

theorem memRead_nat {k : Nat} (h : k < 256) (s : State) : memRead (k : Int) s = .ok (Memory.read s.mem k) :=
  if_pos ⟨by omega, by omega⟩

theorem memRead_out {addr : Int} (h : ¬ (0 ≤ addr ∧ addr < 256)) (s : State) :
    memRead addr s = .error (.outOfRange .memory addr) := if_neg h

/-- Everything `memWrite` can do. -/
theorem memWrite_cases (addr : Int) (v : Byte) (s : State) :
    (0 ≤ addr ∧ addr < 256 ∧ memWrite addr v s = .ok { s with mem := Memory.write s.mem addr.toNat v }) ∨
    (¬ (0 ≤ addr ∧ addr < 256) ∧ memWrite addr v s = .error (.outOfRange .memory addr)) := by
  unfold memWrite
  split
  · rename_i h
    exact .inl ⟨h.1, h.2, rfl⟩
  · rename_i h
    exact .inr ⟨h, rfl⟩

theorem memWrite_in {addr : Int} (h0 : 0 ≤ addr) (h1 : addr < 256) (v : Byte) (s : State) :
    memWrite addr v s = .ok { s with mem := Memory.write s.mem addr.toNat v } := if_pos ⟨h0, h1⟩

theorem memWrite_out {addr : Int} (h : ¬ (0 ≤ addr ∧ addr < 256)) (v : Byte) (s : State) :
    memWrite addr v s = .error (.outOfRange .memory addr) := if_neg h

/-- What `memWrite` answers keeps the canonical form. -/
theorem memWrite_wf {addr : Int} {v : Byte} {s t : State} (hw : Memory.wf s.mem = true)
    (h : memWrite addr v s = .ok t) : Memory.wf t.mem = true := by
  rcases memWrite_cases addr v s with ⟨h0, h1, h2⟩ | ⟨_, h2⟩
  · rw [h2] at h
    cases h
    exact wf_write hw (by omega) v
  · rw [h2] at h
    cases h

end Sys2Proof.Machine
end

