-- ==== Sys2Proof/Laws/Ops.lean ====
section
/-! SUPPORT. One lemma per shared operation that says everything it can do: registers, the re-read operand, the ALU,
fetch, and the end of a rule. -/

namespace Sys2Proof.Machine

/-! ### The sequence of a rule's lines -/

@[simp] theorem ok_bind {α β : Type} (a : α) (f : α → Except Raised β) : (Except.ok a >>= f) = f a := rfl

@[simp] theorem error_bind {α β : Type} (r : Raised) (f : α → Except Raised β) :
    (Except.error r >>= f) = Except.error r := rfl

@[simp] theorem pure_eq_ok {α : Type} (a : α) : (pure a : Except Raised α) = .ok a := rfl

@[simp] theorem conclude_ok (s t : State) : conclude s (.ok t) = .next t := rfl

@[simp] theorem conclude_outOfRange (s : State) (k : AccessKind) (v : Int) :
    conclude s (.error (.outOfRange k v)) = .next (abort k v s) := rfl

@[simp] theorem conclude_unsupported (s : State) (n : Nat) :
    conclude s (.error (.unsupportedOperation n)) = .fault (.unsupportedAluOperation n) := rfl

/-- An out-of-range event is an abort in the sense of Safety.lean. -/
theorem aborts_conclude (s : State) (k : AccessKind) (v : Int) :
    Aborts s k v (conclude s (.error (.outOfRange k v))) := ⟨abort k v s, rfl, rfl, rfl, rfl⟩

/-- A rule that completes answered the state it reached. -/
theorem completes_conclude {s t : State} {r : Except Raised State} (h : CompletesWith t (conclude s r)) :
    r = .ok t := by
  obtain ⟨h1, h2⟩ := h
  rcases r with (⟨k, v⟩ | n) | u
  · simp only [conclude_outOfRange, Host.Outcome.next.injEq] at h1
    exact absurd (h1 ▸ rfl) h2
  · simp at h1
  · simp only [conclude_ok, Host.Outcome.next.injEq] at h1
    rw [h1]

/-! ### Registers -/

theorem regRead_in (i : Nat) (h : i < 8) (s : State) : regRead i s = .ok s.regs[i] := dif_pos h

@[simp] theorem regRead_fin (i : Fin 8) (s : State) : regRead i.val s = .ok s.regs[i] := dif_pos i.isLt

theorem regRead_out {i : Nat} (h : 8 ≤ i) (s : State) : regRead i s = .error (.outOfRange .register i) :=
  dif_neg (by omega)

theorem regWrite_in (i : Nat) (h : i < 8) (v : Nat) (s : State) :
    regWrite i v s = .ok { s with regs := s.regs.set i (BitVec.ofNat 8 v) } := dif_pos h

@[simp] theorem regWrite_fin (i : Fin 8) (v : Nat) (s : State) :
    regWrite i.val v s = .ok { s with regs := s.regs.set i.val (BitVec.ofNat 8 v) } := dif_pos i.isLt

theorem regWrite_out {i : Nat} (h : 8 ≤ i) (v : Nat) (s : State) :
    regWrite i v s = .error (.outOfRange .register i) := dif_neg (by omega)

/-- Everything `regRead` can do. -/
theorem regRead_cases (i : Nat) (s : State) :
    (∃ h : i < 8, regRead i s = .ok s.regs[i]) ∨ (8 ≤ i ∧ regRead i s = .error (.outOfRange .register i)) := by
  by_cases h : i < 8
  · exact .inl ⟨h, regRead_in i h s⟩
  · exact .inr ⟨by omega, regRead_out (by omega) s⟩

/-- Everything `regWrite` can do. -/
theorem regWrite_cases (i : Nat) (v : Nat) (s : State) :
    (∃ h : i < 8, regWrite i v s = .ok { s with regs := s.regs.set i (BitVec.ofNat 8 v) }) ∨
    (8 ≤ i ∧ regWrite i v s = .error (.outOfRange .register i)) := by
  by_cases h : i < 8
  · exact .inl ⟨h, regWrite_in i h v s⟩
  · exact .inr ⟨by omega, regWrite_out (by omega) v s⟩

/-! ### The re-read operand -/

/-- Everything `rereadIndex` can do. -/
theorem rereadIndex_cases (s : State) :
    (s.pc + 1 < 256 ∧ rereadIndex s = .ok (operandA s).toNat) ∨
    (256 ≤ s.pc + 1 ∧ rereadIndex s = .error (.outOfRange .memory (s.pc + 1))) := by
  unfold rereadIndex operandA
  by_cases h : s.pc + 1 < 256
  · left
    have := memRead_nat h s
    push_cast at this
    simp [h, this]
  · right
    rw [memRead_out (by omega)]
    exact ⟨by omega, rfl⟩

theorem rereadIndex_in {s : State} (h : s.pc + 1 < 256) : rereadIndex s = .ok (operandA s).toNat := by
  rcases rereadIndex_cases s with ⟨_, h2⟩ | ⟨h1, _⟩
  · exact h2
  · omega

@[simp] theorem rereadIndex_setSp (v : Int) (s : State) : rereadIndex (setSp v s) = rereadIndex s := rfl

/-- The address PUSH writes is always inside memory. -/
theorem pushSp_range (s : State) : 0 ≤ pushSp s ∧ pushSp s < 256 := by
  unfold pushSp
  omega

/-! ### The ALU -/

/-- Everything the ALU's ADD can do: `a` is checked before `b`, and the sum is stored modulo 256. -/
theorem aluApply_add_cases (a b : Nat) (s : State) :
    (∃ (ha : a < 8) (hb : b < 8), aluApply .add a b s =
      .ok { s with regs := s.regs.set a (BitVec.ofNat 8 (s.regs[a].toNat + s.regs[b].toNat)) }) ∨
    (8 ≤ a ∧ aluApply .add a b s = .error (.outOfRange .register a)) ∨
    (a < 8 ∧ 8 ≤ b ∧ aluApply .add a b s = .error (.outOfRange .register b)) := by
  unfold aluApply
  rcases regRead_cases a s with ⟨ha, e1⟩ | ⟨ha, e1⟩
  · rcases regRead_cases b s with ⟨hb, e2⟩ | ⟨hb, e2⟩
    · left
      exact ⟨ha, hb, by simp [e1, e2, regWrite_in a ha]⟩
    · right; right
      exact ⟨ha, hb, by simp [e1, e2]⟩
  · right; left
    exact ⟨ha, by simp [e1]⟩

/-! ### Fetch -/

/-- The three fetches succeed at `pc` 0 to 253. -/
theorem fetch_in {s : State} (h : s.pc ≤ 253) : fetch s = .ok (opcodeAt s, operandA s, operandB s) := by
  have e0 := memRead_nat (show s.pc < 256 by omega) s
  have e1 := memRead_nat (show s.pc + 1 < 256 by omega) s
  have e2 := memRead_nat (show s.pc + 2 < 256 by omega) s
  push_cast at e1 e2
  simp [fetch, e0, e1, e2, opcodeAt, operandA, operandB]

/-- Above 253 a fetch raises: with address 256 for the values `pc` can hold, with `pc` itself beyond. -/
theorem fetch_out {s : State} (h : 254 ≤ s.pc) :
    fetch s = .error (.outOfRange .memory (if s.pc ≤ 256 then 256 else s.pc)) := by
  unfold fetch
  by_cases h2 : s.pc = 254
  · have e0 := memRead_nat (show s.pc < 256 by omega) s
    have e1 := memRead_nat (show s.pc + 1 < 256 by omega) s
    have e2 : memRead (s.pc + 2) s = .error (.outOfRange .memory (s.pc + 2)) := memRead_out (by omega) s
    push_cast at e1
    rw [e0, ok_bind, e1, ok_bind, e2, h2]
    rfl
  · by_cases h1 : s.pc = 255
    · have e0 := memRead_nat (show s.pc < 256 by omega) s
      have e1 : memRead (s.pc + 1) s = .error (.outOfRange .memory (s.pc + 1)) := memRead_out (by omega) s
      rw [e0, ok_bind, e1, h1]
      rfl
    · have e0 : memRead s.pc s = .error (.outOfRange .memory s.pc) := memRead_out (by omega) s
      rw [e0, error_bind]
      split
      · have : s.pc = 256 := by omega
        simp [this]
      · rfl

end Sys2Proof.Machine
end

