-- ==== Sys2Proof/Laws/Exec.lean ====
section
/-! SUPPORT. What an instruction can do, said once: `exec_cases` says that it either has its effect (`Effect`) or raises
one out-of-range event (`Trouble`, the places of 60_exceptions.md R182 and R183); and the same of a step (`cycle_cases`). -/

namespace Sys2Proof.Machine

/-- The effect of an instruction that ran to its last line, with what it needed for that. -/
def Effect (i : Instr) (s t : State) : Prop :=
  match i with
  | .hlt => t = { s with cause := .hlt, run := .halted, pc := s.pc + 1 }
  | .ldi a b => ∃ ha : a < 8, t = { s with regs := s.regs.set a b, pc := s.pc + 3 }
  | .prn a => ∃ ha : a < 8, t = { s with trace := s.trace ++ [.out s.regs[a]], pc := s.pc + 2 }
  | .mul a b => ∃ (ha : a < 8) (hb : b < 8),
      t = { s with regs := s.regs.set a (BitVec.ofNat 8 (s.regs[a].toNat * s.regs[b].toNat)), pc := s.pc + 3 }
  | .add a b => ∃ (ha : a < 8) (hb : b < 8),
      t = { s with regs := s.regs.set a (BitVec.ofNat 8 (s.regs[a].toNat + s.regs[b].toNat)), pc := s.pc + 3 }
  | .push _ => ∃ hi : (operandA s).toNat < 8, s.pc + 1 < 256 ∧
      t = { s with sp := pushSp s, mem := Memory.write s.mem (pushSp s).toNat s.regs[(operandA s).toNat], pc := s.pc + 2 }
  | .pop _ => ∃ hi : (operandA s).toNat < 8, s.pc + 1 < 256 ∧ 0 ≤ s.sp ∧ s.sp < 256 ∧
      t = { s with regs := s.regs.set (operandA s).toNat (Memory.read s.mem s.sp.toNat), sp := popSp s, pc := s.pc + 2 }
  | .call a => ∃ ha : a < 8, 0 ≤ callSp s ∧ callSp s < 256 ∧
      t = { s with sp := callSp s, mem := Memory.write s.mem (callSp s).toNat (returnAddress s), pc := s.regs[a].toNat }
  | .ret => 0 ≤ s.sp ∧ s.sp < 256 ∧ t = { s with pc := (Memory.read s.mem s.sp.toNat).toNat, sp := retSp s }
  | .cmp a b => ∃ (ha : a < 8) (hb : b < 8), t = { compareFlags s.regs[a] s.regs[b] s with pc := s.pc + 3 }
  | .jmp a => ∃ ha : a < 8, t = { s with pc := s.regs[a].toNat }
  | .jeq a => (s.flagE = .one ∧ ∃ ha : a < 8, t = { s with pc := s.regs[a].toNat }) ∨
      (s.flagE ≠ .one ∧ t = { s with pc := s.pc + 2 })
  | .jne a => (s.flagE = .zero ∧ ∃ ha : a < 8, t = { s with pc := s.regs[a].toNat }) ∨
      (s.flagE ≠ .zero ∧ t = { s with pc := s.pc + 2 })

/-- Where an instruction raises, and the value it records (R182, R183). The re-read of PUSH and POP is out of range only
where the instruction could not have been fetched. -/
def Trouble (i : Instr) (s : State) (k : AccessKind) (v : Int) : Prop :=
  match i with
  | .hlt => False
  | .ldi a _ => k = .register ∧ v = a ∧ 8 ≤ a
  | .prn a => k = .register ∧ v = a ∧ 8 ≤ a
  | .mul a b => k = .register ∧ ((v = a ∧ 8 ≤ a) ∨ (v = b ∧ 8 ≤ b ∧ a < 8))
  | .add a b => k = .register ∧ ((v = a ∧ 8 ≤ a) ∨ (v = b ∧ 8 ≤ b ∧ a < 8))
  | .push _ => (k = .memory ∧ 256 ≤ s.pc + 1 ∧ v = s.pc + 1) ∨
      (k = .register ∧ v = (operandA s).toNat ∧ 8 ≤ (operandA s).toNat ∧ s.pc + 1 < 256)
  | .pop _ => (k = .memory ∧ 256 ≤ s.pc + 1 ∧ v = s.pc + 1) ∨
      (k = .memory ∧ v = s.sp ∧ ¬ (0 ≤ s.sp ∧ s.sp < 256) ∧ s.pc + 1 < 256) ∨
      (k = .register ∧ v = (operandA s).toNat ∧ 8 ≤ (operandA s).toNat ∧ 0 ≤ s.sp ∧ s.sp < 256 ∧ s.pc + 1 < 256)
  | .call a => (k = .memory ∧ v = callSp s ∧ ¬ (0 ≤ callSp s ∧ callSp s < 256)) ∨
      (k = .register ∧ v = a ∧ 8 ≤ a ∧ 0 ≤ callSp s ∧ callSp s < 256)
  | .ret => k = .memory ∧ v = s.sp ∧ ¬ (0 ≤ s.sp ∧ s.sp < 256)
  | .cmp a b => k = .register ∧ ((v = a ∧ 8 ≤ a) ∨ (v = b ∧ 8 ≤ b ∧ a < 8))
  | .jmp a => k = .register ∧ v = a ∧ 8 ≤ a
  | .jeq a => k = .register ∧ v = a ∧ 8 ≤ a ∧ s.flagE = .one
  | .jne a => k = .register ∧ v = a ∧ 8 ≤ a ∧ s.flagE = .zero

/-- An instruction has its effect, or aborts at one of its places. -/
theorem exec_cases (i : Instr) (s : State) :
    (∃ t, exec i s = .next t ∧ Effect i s t) ∨ (∃ k v, exec i s = .next (abort k v s) ∧ Trouble i s k v) := by
  cases i with
  | hlt => exact .inl ⟨_, rfl, rfl⟩
  | ldi a b =>
    rcases regWrite_cases a (immediate b) s with ⟨ha, e⟩ | ⟨ha, e⟩
    · refine .inl ⟨_, ?_, ha, rfl⟩
      simp [exec, execLdi, e, advance]
      simp [immediate]
    · exact .inr ⟨.register, a, by simp [exec, execLdi, e], rfl, rfl, ha⟩
  | prn a =>
    rcases regRead_cases a s with ⟨ha, e⟩ | ⟨ha, e⟩
    · refine .inl ⟨_, ?_, ha, rfl⟩
      simp [exec, execPrn, e, advance, emit]
    · exact .inr ⟨.register, a, by simp [exec, execPrn, e], rfl, rfl, ha⟩
  | mul a b =>
    rcases regRead_cases a s with ⟨ha, e1⟩ | ⟨ha, e1⟩
    · rcases regRead_cases b s with ⟨hb, e2⟩ | ⟨hb, e2⟩
      · refine .inl ⟨_, ?_, ha, hb, rfl⟩
        simp [exec, execMul, e1, e2, regWrite_in a ha, advance]
      · exact .inr ⟨.register, b, by simp [exec, execMul, e1, e2], rfl, .inr ⟨rfl, hb, ha⟩⟩
    · exact .inr ⟨.register, a, by simp [exec, execMul, e1], rfl, .inl ⟨rfl, ha⟩⟩
  | add a b =>
    rcases aluApply_add_cases a b s with ⟨ha, hb, e⟩ | ⟨ha, e⟩ | ⟨ha, hb, e⟩
    · refine .inl ⟨_, ?_, ha, hb, rfl⟩
      simp [exec, execAdd, e, advance]
    · exact .inr ⟨.register, a, by simp [exec, execAdd, e], rfl, .inl ⟨rfl, ha⟩⟩
    · exact .inr ⟨.register, b, by simp [exec, execAdd, e], rfl, .inr ⟨rfl, hb, ha⟩⟩
  | push a =>
    obtain ⟨h0, h1⟩ := pushSp_range s
    rcases rereadIndex_cases s with ⟨hp, e1⟩ | ⟨hp, e1⟩
    · rcases regRead_cases (operandA s).toNat (setSp (pushSp s) s) with ⟨hi, e2⟩ | ⟨hi, e2⟩
      · refine .inl ⟨_, ?_, hi, hp, rfl⟩
        simp [exec, execPush, e1, e2, memWrite_in h0 h1, advance]
      · exact .inr ⟨.register, (operandA s).toNat, by simp [exec, execPush, e1, e2], .inr ⟨rfl, rfl, hi, hp⟩⟩
    · exact .inr ⟨.memory, s.pc + 1, by simp [exec, execPush, e1], .inl ⟨rfl, hp, rfl⟩⟩
  | pop a =>
    rcases rereadIndex_cases s with ⟨hp, e1⟩ | ⟨hp, e1⟩
    · rcases memRead_cases s.sp s with ⟨h0, h1, e2⟩ | ⟨hs, e2⟩
      · rcases regWrite_cases (operandA s).toNat (Memory.read s.mem s.sp.toNat).toNat s with ⟨hi, e3⟩ | ⟨hi, e3⟩
        · refine .inl ⟨_, ?_, hi, hp, h0, h1, rfl⟩
          simp [exec, execPop, e1, e2, e3, advance, setSp, popSp]
        · exact .inr ⟨.register, (operandA s).toNat, by simp [exec, execPop, e1, e2, e3],
            .inr (.inr ⟨rfl, rfl, hi, h0, h1, hp⟩)⟩
      · exact .inr ⟨.memory, s.sp, by simp [exec, execPop, e1, e2], .inr (.inl ⟨rfl, rfl, hs, hp⟩)⟩
    · exact .inr ⟨.memory, s.pc + 1, by simp [exec, execPop, e1], .inl ⟨rfl, hp, rfl⟩⟩
  | call a =>
    rcases memWrite_cases (callSp s) (returnAddress (setSp (callSp s) s)) (setSp (callSp s) s) with
      ⟨h0, h1, e1⟩ | ⟨hs, e1⟩
    · by_cases ha : a < 8
      · refine .inl ⟨_, ?_, ha, h0, h1, rfl⟩
        simp [exec, execCall, e1, regRead_in a ha, jump]
        simp [setSp, returnAddress]
      · exact .inr ⟨.register, a, by simp [exec, execCall, e1, regRead_out (i := a) (by omega)],
          .inr ⟨rfl, rfl, by omega, h0, h1⟩⟩
    · exact .inr ⟨.memory, callSp s, by simp [exec, execCall, e1], .inl ⟨rfl, rfl, hs⟩⟩
  | ret =>
    rcases memRead_cases s.sp s with ⟨h0, h1, e⟩ | ⟨hs, e⟩
    · refine .inl ⟨_, ?_, h0, h1, rfl⟩
      simp [exec, execRet, e, jump, setSp, retSp]
    · exact .inr ⟨.memory, s.sp, by simp [exec, execRet, e], rfl, rfl, hs⟩
  | cmp a b =>
    rcases regRead_cases a s with ⟨ha, e1⟩ | ⟨ha, e1⟩
    · rcases regRead_cases b s with ⟨hb, e2⟩ | ⟨hb, e2⟩
      · refine .inl ⟨_, ?_, ha, hb, rfl⟩
        simp [exec, execCmp, e1, e2, advance]
      · exact .inr ⟨.register, b, by simp [exec, execCmp, e1, e2], rfl, .inr ⟨rfl, hb, ha⟩⟩
    · exact .inr ⟨.register, a, by simp [exec, execCmp, e1], rfl, .inl ⟨rfl, ha⟩⟩
  | jmp a =>
    rcases regRead_cases a s with ⟨ha, e⟩ | ⟨ha, e⟩
    · refine .inl ⟨_, ?_, ha, rfl⟩
      simp [exec, execJmp, e, jump]
    · exact .inr ⟨.register, a, by simp [exec, execJmp, e], rfl, rfl, ha⟩
  | jeq a =>
    rcases hE : s.flagE with _ | _ | _
    · exact .inl ⟨_, by simp [exec, execJeq, hE, advance], .inr ⟨by simp [hE], rfl⟩⟩
    · exact .inl ⟨_, by simp [exec, execJeq, hE, advance], .inr ⟨by simp [hE], rfl⟩⟩
    · rcases regRead_cases a s with ⟨ha, e⟩ | ⟨ha, e⟩
      · exact .inl ⟨_, by simp [exec, execJeq, hE, e, jump], .inl ⟨hE, ha, rfl⟩⟩
      · exact .inr ⟨.register, a, by simp [exec, execJeq, hE, e], rfl, rfl, ha, hE⟩
  | jne a =>
    rcases hE : s.flagE with _ | _ | _
    · exact .inl ⟨_, by simp [exec, execJne, hE, advance], .inr ⟨by simp [hE], rfl⟩⟩
    · rcases regRead_cases a s with ⟨ha, e⟩ | ⟨ha, e⟩
      · exact .inl ⟨_, by simp [exec, execJne, hE, e, jump], .inl ⟨hE, ha, rfl⟩⟩
      · exact .inr ⟨.register, a, by simp [exec, execJne, hE, e], rfl, rfl, ha, hE⟩
    · exact .inl ⟨_, by simp [exec, execJne, hE, advance], .inr ⟨by simp [hE], rfl⟩⟩

/-- An instruction that completes had its effect. -/
theorem effect_of_completes {i : Instr} {s t : State} (h : CompletesWith t (exec i s)) : Effect i s t := by
  obtain ⟨h1, h2⟩ := h
  rcases exec_cases i s with ⟨u, e, hu⟩ | ⟨k, v, e, _⟩
  · rw [e] at h1
    cases h1
    exact hu
  · rw [e] at h1
    cases h1
    exact absurd rfl h2

/-! ### The step -/

/-- What a step of a Running core can do: abort in its fetch, meet an unknown opcode, or run the instruction its three
bytes decode to. -/
theorem cycle_running (c : Config) {s : State} (hr : s.run = .running) :
    (254 ≤ s.pc ∧ cycle c s = .next (abort .memory (if s.pc ≤ 256 then 256 else s.pc) s)) ∨
    (s.pc ≤ 253 ∧ resolve c (opcodeAt s) = none ∧ cycle c s = .next (unknownOpcode (opcodeAt s) s)) ∨
    (s.pc ≤ 253 ∧ ∃ m, resolve c (opcodeAt s) = some m ∧
      cycle c s = exec (m.withOperands (operandA s) (operandB s)) s) := by
  by_cases h : s.pc ≤ 253
  · have e := fetch_in h
    cases hm : resolve c (opcodeAt s) with
    | none => exact .inr (.inl ⟨h, rfl, by simp [cycle, hr, e, invoke, decode, hm]⟩)
    | some m => exact .inr (.inr ⟨h, m, rfl, by simp [cycle, hr, e, invoke, decode, hm]⟩)
  · exact .inl ⟨by omega, by simp [cycle, hr, fetch_out (s := s) (by omega)]⟩

/-- In a terminal state a step changes nothing. -/
theorem cycle_terminal (c : Config) {s : State} (hr : s.run ≠ .running) : cycle c s = .next s := by
  unfold cycle
  split
  · rfl
  · rfl
  · exact absurd (by assumption) hr

/-- A machine whose step leaves a state as it is stays there for any number of steps. -/
theorem run_fixed (M : Host.Core) (s : M.State) (h : M.step s = .next s) (k : Nat) : M.run k s = .next s := by
  induction k with
  | zero => rfl
  | succ k ih => simp only [Host.Core.run, h, ih]

end Sys2Proof.Machine
end

