-- ==== Sys2Proof/Laws/PerInstr.lean ====
section
/-! SUPPORT. Statements for all instructions, one lemma per constructor: the length and the opcode byte of an encoding
(30_encoding.md R80, R81, R83). -/

namespace Sys2Proof.Laws.Encoded

/-- The encoding of an instruction is its opcode byte followed by as many operand bytes as its width leaves. -/
def Statement (i : Instr) : Prop :=
  ∀ c : Config, (encode c i).length = i.mnemonic.width ∧ (encode c i).head? = some (c.opc i.mnemonic)

theorem hlt : Statement .hlt := fun _ => ⟨rfl, rfl⟩
theorem ldi (a : Nat) (b : Byte) : Statement (.ldi a b) := fun _ => ⟨rfl, rfl⟩
theorem prn (a : Nat) : Statement (.prn a) := fun _ => ⟨rfl, rfl⟩
theorem mul (a b : Nat) : Statement (.mul a b) := fun _ => ⟨rfl, rfl⟩
theorem add (a b : Nat) : Statement (.add a b) := fun _ => ⟨rfl, rfl⟩
theorem push (a : Nat) : Statement (.push a) := fun _ => ⟨rfl, rfl⟩
theorem pop (a : Nat) : Statement (.pop a) := fun _ => ⟨rfl, rfl⟩
theorem call (a : Nat) : Statement (.call a) := fun _ => ⟨rfl, rfl⟩
theorem ret : Statement .ret := fun _ => ⟨rfl, rfl⟩
theorem cmp (a b : Nat) : Statement (.cmp a b) := fun _ => ⟨rfl, rfl⟩
theorem jmp (a : Nat) : Statement (.jmp a) := fun _ => ⟨rfl, rfl⟩
theorem jeq (a : Nat) : Statement (.jeq a) := fun _ => ⟨rfl, rfl⟩
theorem jne (a : Nat) : Statement (.jne a) := fun _ => ⟨rfl, rfl⟩

end Sys2Proof.Laws.Encoded
end

