-- ==== Sys2Proof/Tests/Slice0.lean ====
section
/-! SUPPORT. The model's own tests: the well-formedness smoke, one written-out word per row of the opcode table, single
steps from spec/95_test_vectors.md (each names its vector), and for every obligation with hypotheses a concrete state and
operands that meet them, at the boundaries of its clauses. Opcode bytes are the default of 30_encoding.md R86. -/

namespace Sys2Proof.Tests

open Sys2Proof Sys2Proof.Machine

/-! ### Helpers -/

/-- Bytes placed in memory from an address on. -/
def put (m : Memory) (a : Nat) : List Byte → Memory
  | [] => m
  | b :: bs => put (Memory.write m a b) (a + 1) bs

/-- The reset state with `pc`, and the bytes of an instruction at `pc`. -/
def before (pc : Nat) (bytes : List Byte) : State :=
  { State.reset with pc := pc, mem := put [] pc bytes }

/-- The same with a stack pointer, a stack cell and registers 0 and 1. -/
def beforeStack (pc : Nat) (bytes : List Byte) (sp : Int) (cell : Nat) (v x0 x1 : Byte) : State :=
  { State.reset with
    pc := pc, sp := sp, mem := Memory.write (put [] pc bytes) cell v, regs := #v[x0, x1, 0, 0, 27, 0, 0, 0xF4] }

/-- A state with the given Equal flag and `L` where the flags are set (one-hot). -/
def withE (e l g : Flag) (s : State) : State := { s with flagE := e, flagL := l, flagG := g }

/-- The state an outcome answers, the given one where it answers none. -/
def answered (o : Host.Outcome State Fault Refusal) (d : State) : State :=
  match o with
  | .next t => t
  | .fault _ => d
  | .refused _ => d

/-- The state after one step. -/
def after (s : State) : State := answered (step s) s

/-- The state after one instruction. -/
def ran (i : Instr) (s : State) : State := answered (exec i s) s

/-- Every instruction answers a state, so one that did not abort completed. -/
theorem ran_completes (i : Instr) (s : State) (h : (ran i s).run ≠ .aborted) : CompletesWith (ran i s) (exec i s) := by
  refine ⟨?_, h⟩
  rcases exec_cases i s with ⟨t, e, _⟩ | ⟨k, v, e, _⟩ <;> simp [ran, answered, e]

/-! ### Well-formedness: an ill-formed term for each check -/

theorem test_wf_accepts_byte_index : (Instr.ldi 255 0).wellFormed = true := by decide
theorem test_wf_refuses_ldi : (Instr.ldi 256 0).wellFormed = false := by decide
theorem test_wf_refuses_prn : (Instr.prn 256).wellFormed = false := by decide
theorem test_wf_refuses_mul_a : (Instr.mul 256 0).wellFormed = false := by decide
theorem test_wf_refuses_mul_b : (Instr.mul 0 256).wellFormed = false := by decide
theorem test_wf_refuses_add_a : (Instr.add 256 0).wellFormed = false := by decide
theorem test_wf_refuses_add_b : (Instr.add 0 256).wellFormed = false := by decide
theorem test_wf_refuses_push : (Instr.push 256).wellFormed = false := by decide
theorem test_wf_refuses_pop : (Instr.pop 256).wellFormed = false := by decide
theorem test_wf_refuses_call : (Instr.call 256).wellFormed = false := by decide
theorem test_wf_refuses_cmp_a : (Instr.cmp 256 0).wellFormed = false := by decide
theorem test_wf_refuses_cmp_b : (Instr.cmp 0 256).wellFormed = false := by decide
theorem test_wf_refuses_jmp : (Instr.jmp 256).wellFormed = false := by decide
theorem test_wf_refuses_jeq : (Instr.jeq 256).wellFormed = false := by decide
theorem test_wf_refuses_jne : (Instr.jne 256).wellFormed = false := by decide

/-! ### Decoding: each row's word written out from R83 and R86, bit by bit -/

theorem test_decode_hlt : decodeBytes defaultConfig [0b00000001] = .ok (.hlt, []) := by decide
theorem test_decode_ldi :
    decodeBytes defaultConfig [0b10000010, 0b00000000, 0b00001000] = .ok (.ldi 0 8, []) := by decide
theorem test_decode_prn : decodeBytes defaultConfig [0b01000111, 0b00000111, 0b1] = .ok (.prn 7, [1]) := by decide
theorem test_decode_mul :
    decodeBytes defaultConfig [0b10100010, 0b00000000, 0b00000001] = .ok (.mul 0 1, []) := by decide
theorem test_decode_add :
    decodeBytes defaultConfig [0b10100000, 0b00000010, 0b11111111] = .ok (.add 2 255, []) := by decide
theorem test_decode_push : decodeBytes defaultConfig [0b01000101, 0b00000001] = .ok (.push 1, []) := by decide
theorem test_decode_pop : decodeBytes defaultConfig [0b01000110, 0b00000011] = .ok (.pop 3, []) := by decide
theorem test_decode_call : decodeBytes defaultConfig [0b01010000, 0b00000001] = .ok (.call 1, []) := by decide
theorem test_decode_ret : decodeBytes defaultConfig [0b00010001] = .ok (.ret, []) := by decide
theorem test_decode_cmp :
    decodeBytes defaultConfig [0b10100111, 0b00000000, 0b00000010] = .ok (.cmp 0 2, []) := by decide
theorem test_decode_jmp : decodeBytes defaultConfig [0b01010100, 0b00000011] = .ok (.jmp 3, []) := by decide
theorem test_decode_jeq : decodeBytes defaultConfig [0b01010101, 0b00000100] = .ok (.jeq 4, []) := by decide
theorem test_decode_jne : decodeBytes defaultConfig [0b01010110, 0b00001000] = .ok (.jne 8, []) := by decide
/-- R88, N19: 0x00 is an unknown opcode, not a no-operation. -/
theorem test_decode_zero : decodeBytes defaultConfig [0x00, 0x00] = .error (.unknownOpcode 0x00) := by decide
theorem test_decode_truncated : decodeBytes defaultConfig [0x82, 0x00] = .error (.truncated .ldi) := by decide
theorem test_decode_empty : decodeBytes defaultConfig [] = .error .noOpcode := by decide

/-! ### Single steps (spec/95_test_vectors.md) -/

/-- V-HLT-2 (the `pc` is named by no test, U2). -/
theorem test_hlt : ((after (before 0 [0x01, 0x08, 0x08])).run, (after (before 0 [0x01, 0x08, 0x08])).cause) =
    (.halted, .hlt) := by decide
/-- V-LDI-5: register 7 is not the stack pointer. -/
theorem test_ldi_register7 : ((after (before 0 [0x82, 0x07, 0x10])).regs[7],
    (after (before 0 [0x82, 0x07, 0x10])).sp, (after (before 0 [0x82, 0x07, 0x10])).pc) = (16, 244, 3) := by decide
/-- V-LDI-4: the index is not masked to 3 bits. -/
theorem test_ldi_bad_index : ((after (before 0 [0x82, 0xFF, 0x01])).run, (after (before 0 [0x82, 0xFF, 0x01])).cause) =
    (.aborted, .outOfRange .register 255) := by decide
/-- V-PRN-2. -/
theorem test_prn : ((after (before 0 [0x47, 0x07])).trace, (after (before 0 [0x47, 0x07])).pc) =
    ([.out 244], 2) := by decide
/-- V-PRN-3: nothing is emitted. -/
theorem test_prn_bad_index : ((after (before 0 [0x47, 0x09])).cause, (after (before 0 [0x47, 0x09])).trace) =
    (.outOfRange .register 9, []) := by decide
/-- V-MUL-4: 400 mod 256. -/
theorem test_mul : ((after (beforeStack 0 [0xA2, 0, 1] 244 244 0 200 2)).regs[0],
    (after (beforeStack 0 [0xA2, 0, 1] 244 244 0 200 2)).regs[1]) = (144, 2) := by decide
/-- V-MUL-11: `a` is checked before `b`. -/
theorem test_mul_order : (after (before 0 [0xA2, 0x09, 0x0A])).cause = .outOfRange .register 9 := by decide
/-- V-ADD-1: the document's boundary case. -/
theorem test_add_wraps : ((after (beforeStack 0 [0xA0, 0, 1] 244 244 0 255 1)).regs[0],
    (after (beforeStack 0 [0xA0, 0, 1] 244 244 0 255 1)).flagE) = (0, .unset) := by decide
/-- V-ADD-10. -/
theorem test_add_bad_index : (after (before 0 [0xA0, 0x00, 0x0C])).cause = .outOfRange .register 12 := by decide
/-- V-PUSH-2: wrap at `sp` 0. -/
theorem test_push_wraps : ((after (beforeStack 0 [0x45, 0] 0 244 0 7 0)).sp,
    Memory.read (after (beforeStack 0 [0x45, 0] 0 244 0 7 0)).mem 255) = (255, 7) := by decide
/-- V-PUSH-6: the push overwrites its own operand byte after it was used. -/
theorem test_push_own_operand : (Memory.read (after (beforeStack 0 [0x45, 0] 2 244 0 0x99 0)).mem 1,
    (after (beforeStack 0 [0x45, 0] 2 244 0 0x99 0)).pc) = (0x99, 2) := by decide
/-- V-POP-2: wrap at `sp` 255. -/
theorem test_pop_wraps : ((after (beforeStack 0 [0x46, 0] 255 255 77 0 0)).regs[0],
    (after (beforeStack 0 [0x46, 0] 255 255 77 0 0)).sp) = (77, 0) := by decide
/-- V-POP-6: the memory read comes before the register write. -/
theorem test_pop_order : (after (beforeStack 0 [0x46, 8] 256 244 0 0 0)).cause = .outOfRange .memory 256 := by decide
/-- V-CALL-4: the largest return address. -/
theorem test_call_at_253 : (Memory.read (after (beforeStack 253 [0x50, 1] 244 244 0 0 11)).mem 243,
    (after (beforeStack 253 [0x50, 1] 244 244 0 0 11)).pc) = (255, 11) := by decide
/-- V-CALL-6: `sp` 0, and the memory write comes before the register read. -/
theorem test_call_order : (after (beforeStack 0 [0x50, 8] 0 244 0 0 11)).cause = .outOfRange .memory (-1) := by decide
/-- V-RET-2: not reduced to 0. -/
theorem test_ret_at_255 : ((after (beforeStack 0 [0x11] 255 255 9 0 0)).pc,
    (after (beforeStack 0 [0x11] 255 255 9 0 0)).sp) = (9, 256) := by decide
/-- V-RET-3. -/
theorem test_ret_at_256 : (after (beforeStack 0 [0x11] 256 244 0 0 0)).cause = .outOfRange .memory 256 := by decide
/-- V-CMP-4: unsigned. -/
theorem test_cmp_unsigned : ((after (beforeStack 0 [0xA7, 0, 1] 244 244 0 0 255)).flagE,
    (after (beforeStack 0 [0xA7, 0, 1] 244 244 0 0 255)).flagL,
    (after (beforeStack 0 [0xA7, 0, 1] 244 244 0 0 255)).flagG) = (.zero, .one, .zero) := by decide
/-- V-CMP-10. -/
theorem test_cmp_bad_index : (after (before 0 [0xA7, 0x00, 0x08])).cause = .outOfRange .register 8 := by decide
/-- V-JMP-4, with `x[1]` as the target: a target of 255 is accepted. -/
theorem test_jmp : ((after (beforeStack 0 [0x54, 1] 244 244 0 0 255)).pc,
    (after (beforeStack 0 [0x54, 1] 244 244 0 0 255)).run) = (255, .running) := by decide
/-- V-JCC-4 and V-JCC-1: JEQ taken on 1, not on unset. -/
theorem test_jeq : ((after (withE .one .zero .zero (beforeStack 23 [0x55, 4] 244 244 0 0 0))).pc,
    (after (beforeStack 23 [0x55, 4] 244 244 0 0 0)).pc) = (27, 25) := by decide
/-- V-JCC-6: not taken, no fault on a bad index. -/
theorem test_jeq_untaken_bad_index : ((after (withE .zero .one .zero (before 0 [0x55, 8]))).pc,
    (after (withE .zero .one .zero (before 0 [0x55, 8]))).run) = (2, .running) := by decide
/-- V-JCC-2 and V-JCC-1: JNE taken on 0, not on unset. -/
theorem test_jne : ((after (withE .zero .one .zero (beforeStack 23 [0x56, 4] 244 244 0 0 0))).pc,
    (after (beforeStack 23 [0x56, 4] 244 244 0 0 0)).pc) = (27, 25) := by decide
/-- V-JCC-6, JNE. -/
theorem test_jne_bad_index : (after (withE .zero .one .zero (before 0 [0x56, 8]))).cause = .outOfRange .register 8 := by
  decide
/-- V-FET-2: HLT at 254 does not halt. -/
theorem test_fetch_254 : ((after (before 254 [0x01])).run, (after (before 254 [0x01])).cause) =
    (.aborted, .outOfRange .memory 256) := by decide
/-- V-FET-5: the fetch fault comes before the resolution, no Diag. -/
theorem test_fetch_before_unknown : ((after (before 254 [0xFF])).cause, (after (before 254 [0xFF])).trace) =
    (.outOfRange .memory 256, []) := by decide
/-- V-FET-6. -/
theorem test_unknown_at_253 : ((after (before 253 [0xFF])).trace, (after (before 253 [0xFF])).pc) =
    ([.diag 0xFF 253], 253) := by decide
/-- V-FET-7: `pc` does not wrap. -/
theorem test_pc_256 : (after (before 253 [0x82, 0x00, 0x07])).pc = 256 := by decide
/-- V-FET-8: the empty image. -/
theorem test_empty_image : ((after State.reset).trace, (after State.reset).cause, (after State.reset).run,
    (after State.reset).pc) = ([.diag 0 0], .unknownOpcode 0 0, .halted, 0) := by decide
/-- R212: the image of P1 placed by the load. -/
theorem test_load : (Memory.read (State.load [0x82, 0x00, 0x08] (by decide) State.reset).mem 2,
    Memory.read (State.load [0x82, 0x00, 0x08] (by decide) State.reset).mem 3) = (8, 0) := by
  simp only [load_mem]
  rw [read_ofBytes _ (by decide), read_ofBytes _ (by decide)]
  decide
/-- The host's placing of a word runs it next, from a terminal state with `pc` 256 too (notes/assumptions/17.md). -/
theorem test_withFetchWord : (after (State.withFetchWord { State.reset with pc := 256, run := .halted, cause := .hlt } 24
    0x080082)).regs[0] = 8 := by decide

/-! ### Witnesses: the hypotheses of each obligation, met together -/

theorem witness_DecodeInvertsEncode :
    Function.Injective defaultConfig.opc ∧ (Instr.ldi 255 255).wellFormed = true ∧ (Instr.add 0 255).wellFormed = true ∧
    Instr.hlt.wellFormed = true := by
  refine ⟨fun m n h => ?_, by decide⟩
  cases m <;> cases n <;> first | rfl | exact absurd h (by decide)
theorem witness_EncodeInvertsDecode :
    decodeBytes defaultConfig [0x11] = .ok (.ret, []) ∧
    decodeBytes defaultConfig [0x82, 0xFF, 0x00, 0x01] = .ok (.ldi 255 0, [0x01]) := by decide
theorem witness_UnknownOpcodesAreTheOther243 :
    decode defaultConfig 0x00 0 0 = .error (.unknownOpcode 0x00) ∧ decode defaultConfig 0x01 0 0 = .ok .hlt := by decide
theorem witness_BytesBeyondTheWidthAreIgnored :
    decode defaultConfig 0x01 1 2 = .ok .hlt ∧ Instr.hlt.mnemonic.width = 1 ∧
    decode defaultConfig 0x47 1 2 = .ok (.prn 1) ∧ (Instr.prn 1).mnemonic.width = 2 ∧
    decode defaultConfig 0xA7 1 2 = .ok (.cmp 1 2) := by decide
theorem witness_MemReadIsBoundsChecked :
    memRead 0 State.reset = .ok 0 ∧ memRead 255 State.reset = .ok 0 ∧
    memRead (-1) State.reset = .error (.outOfRange .memory (-1)) ∧
    memRead 256 State.reset = .error (.outOfRange .memory 256) := by decide
theorem witness_MemWriteChangesOneCell :
    Memory.wf (before 0 [1, 2]).mem = true ∧ (memWrite 0 7 (before 0 [1, 2])).toBool = true ∧
    (memWrite 255 0 (before 0 [1, 2])).toBool = true ∧ (memWrite 256 7 (before 0 [1, 2])).toBool = false ∧
    (memWrite (-1) 7 (before 0 [1, 2])).toBool = false := by decide
/-- Equal contents, reached by different writes. -/
theorem witness_CanonicalMemoryIsItsBytes :
    Memory.wf (put [] 0 [1, 2]) = true ∧ Memory.wf (Memory.write (Memory.write [] 1 2) 0 1) = true ∧
    ∀ k, Memory.read (put [] 0 [1, 2]) k = Memory.read (Memory.write (Memory.write [] 1 2) 0 1) k :=
  ⟨by decide, by decide, fun _ => rfl⟩
theorem witness_RegReadIsBoundsChecked :
    regRead 7 State.reset = .ok 0xF4 ∧ regRead 8 State.reset = .error (.outOfRange .register 8) := by decide
theorem witness_RegWriteChangesOneRegister :
    (regWrite 7 510 State.reset).toBool = true ∧ (regWrite 0 256 State.reset).toBool = true ∧
    (regWrite 8 0 State.reset).toBool = false := by decide
/-- The shortest, the longest and an ordinary image. -/
theorem witness_LoadPlacesTheImage :
    ([] : List Byte).length ≤ 256 ∧ (List.replicate 256 (0x11 : Byte)).length ≤ 256 ∧
    ([0x82, 0x00, 0x08] : List Byte).length ≤ 256 :=
  ⟨by decide, by rw [List.length_replicate], by decide⟩
theorem witness_PrnEmitsTheRegister :
    (ran (.prn 7) State.reset).trace = [.out 0xF4] ∧ (8 : Nat) ≤ 8 ∧ (ran (.prn 8) State.reset).trace = [] := by decide
theorem witness_AddWrapsAndFaultsInOrder :
    (8 : Nat) ≤ 8 ∧ (7 : Nat) < 8 ∧ (ran (.add 8 9) State.reset).cause = .outOfRange .register 8 ∧
    (ran (.add 7 255) State.reset).cause = .outOfRange .register 255 := by decide
/-- `pc` 0 and the highest `pc` whose operand byte is in memory, `sp` at both ends. -/
theorem witness_PushStoresTheRegister :
    (before 0 [0x45, 7]).pc + 1 < 256 ∧ operandA (before 0 [0x45, 7]) = BitVec.ofNat 8 7 ∧
    (before 254 [0x45, 0]).pc + 1 < 256 ∧ operandA (before 254 [0x45, 0]) = BitVec.ofNat 8 0 ∧
    (ran (.push 7) (before 0 [0x45, 7])).sp = 243 := by decide
theorem witness_PopLoadsTheRegister :
    (beforeStack 0 [0x46, 0] 0 244 0 0 0).pc + 1 < 256 ∧
    operandA (beforeStack 0 [0x46, 0] 0 244 0 0 0) = BitVec.ofNat 8 0 ∧ 0 ≤ (beforeStack 0 [0x46, 0] 0 244 0 0 0).sp ∧
    operandA (beforeStack 0 [0x46, 7] 255 255 5 0 0) = BitVec.ofNat 8 7 ∧
    (beforeStack 0 [0x46, 7] 255 255 5 0 0).sp ≤ 255 ∧ (ran (.pop 7) (beforeStack 0 [0x46, 7] 255 255 5 0 0)).regs[7] = 5 := by
  decide
theorem witness_CallPushesTheReturnAddress :
    1 ≤ (beforeStack 253 [0x50, 1] 1 244 0 0 11).sp ∧ (beforeStack 253 [0x50, 1] 1 244 0 0 11).pc ≤ 253 ∧
    (beforeStack 0 [0x50, 1] 256 244 0 0 11).sp ≤ 256 ∧ (ran (.call 1) (beforeStack 0 [0x50, 1] 256 244 0 0 11)).sp = 255 := by
  decide
theorem witness_RetTakesTheByteAtSp :
    0 ≤ (beforeStack 0 [0x11] 0 244 0 0 0).sp ∧ (ran .ret (beforeStack 0 [0x11] 0 244 0 0 0)).pc = 0x11 ∧
    (beforeStack 0 [0x11] 255 255 9 0 0).sp ≤ 255 ∧ (beforeStack 0 [0x11] 256 244 0 0 0).sp = 256 := by decide
theorem witness_ConditionalJumpTable :
    State.reset.flagE = .unset ∧ (withE .zero .one .zero State.reset).flagE = .zero ∧
    (withE .one .zero .zero State.reset).flagE = .one := by decide
theorem witness_BadRegisterIndexAborts :
    (8 : Nat) ≤ 8 ∧ (8 : Nat) ≤ 255 ∧ (7 : Nat) < 8 ∧
    (before 0 [0x45, 8]).pc + 1 < 256 ∧ 8 ≤ (operandA (before 0 [0x45, 8])).toNat ∧
    (ran (.push 8) (before 0 [0x45, 8])).cause = .outOfRange .register 8 ∧
    8 ≤ (operandA (beforeStack 0 [0x46, 255] 255 255 1 0 0)).toNat ∧ (beforeStack 0 [0x46, 255] 255 255 1 0 0).sp ≤ 255 ∧
    (ran (.pop 255) (beforeStack 0 [0x46, 255] 255 255 1 0 0)).cause = .outOfRange .register 255 ∧
    1 ≤ (beforeStack 0 [0x50, 8] 1 244 0 0 0).sp ∧
    (ran (.call 8) (beforeStack 0 [0x50, 8] 1 244 0 0 0)).cause = .outOfRange .register 8 ∧
    (ran (.jeq 8) (withE .one .zero .zero State.reset)).cause = .outOfRange .register 8 ∧
    (ran (.jne 8) (withE .zero .zero .one State.reset)).cause = .outOfRange .register 8 := by decide
theorem witness_StackAccessOutsideMemoryAborts :
    (beforeStack 0 [0x46, 0] 256 244 0 0 0).pc + 1 < 256 ∧ 256 ≤ (beforeStack 0 [0x46, 0] 256 244 0 0 0).sp ∧
    (beforeStack 0 [0x11] (-1) 244 0 0 0).sp < 0 ∧ (beforeStack 0 [0x50, 1] 0 244 0 0 0).sp ≤ 0 ∧
    257 ≤ (beforeStack 0 [0x50, 1] 257 244 0 0 0).sp ∧
    (ran (.call 1) (beforeStack 0 [0x50, 1] 257 244 0 0 0)).cause = .outOfRange .memory 256 := by decide
theorem witness_StackEndsDiffer :
    Memory.wf (beforeStack 0 [0x45, 0] 0 255 7 9 0).mem = true ∧ (beforeStack 0 [0x45, 0] 0 255 7 9 0).pc + 1 < 256 ∧
    operandA (beforeStack 0 [0x45, 0] 0 255 7 9 0) = BitVec.ofNat 8 0 ∧ (beforeStack 0 [0x45, 0] 0 255 7 9 0).sp = 0 ∧
    (beforeStack 0 [0x45, 0] 255 255 7 9 0).sp = 255 ∧ (beforeStack 0 [0x45, 0] 256 255 7 9 0).sp = 256 := by decide
theorem witness_StepRunsTheDecodedInstruction :
    (before 253 [0x82, 7, 255]).run = .running ∧ (before 253 [0x82, 7, 255]).pc ≤ 253 ∧
    decode defaultConfig (opcodeAt (before 253 [0x82, 7, 255])) (operandA (before 253 [0x82, 7, 255]))
      (operandB (before 253 [0x82, 7, 255])) = .ok (.ldi 7 0xFF) := by decide
theorem witness_FetchNearTheTopAborts :
    (before 253 [0x01]).run = .running ∧ (before 253 [0x01]).pc ≤ 253 ∧ 254 ≤ (before 254 [0x01]).pc ∧
    (before 256 []).pc ≤ 256 ∧ (after (before 255 [0x01])).cause = .outOfRange .memory 256 ∧
    (after (before 256 [])).cause = .outOfRange .memory 256 := by decide
theorem witness_UnknownOpcodeHaltsWithDiagnostic :
    (before 253 [0xFF]).run = .running ∧ (∀ m, defaultConfig.opc m ≠ opcodeAt (before 253 [0xFF])) ∧
    (before 253 [0xFF]).pc ≤ 253 ∧ (∀ m, defaultConfig.opc m ≠ opcodeAt (before 254 [0xFF])) ∧
    254 ≤ (before 254 [0xFF]).pc ∧ (∀ m, defaultConfig.opc m ≠ opcodeAt (before 256 [])) ∧ (before 256 []).pc ≤ 256 := by
  refine ⟨by decide, fun m => ?_, by decide, fun m => ?_, by decide, fun m => ?_, by decide⟩ <;> cases m <;> decide
theorem witness_TerminalStatesAreFinal :
    ({ State.reset with run := .halted, cause := .hlt } : State).run ≠ .running ∧
    (after (before 254 [])).run ≠ .running := by decide
/-- One Running state for each of the four ends of the disjunction. -/
theorem witness_RunEndsInThreeWays :
    Function.Injective defaultConfig.opc ∧
    (before 0 [0x47]).run = .running ∧ cycle defaultConfig (before 0 [0x47]) = .next (after (before 0 [0x47])) ∧
    (after (before 0 [0x47])).run = .running ∧ cycle defaultConfig (before 0 [0x01]) = .next (after (before 0 [0x01])) ∧
    (after (before 0 [0x01])).cause = .hlt ∧ (after (before 0 [0xFF])).cause = .unknownOpcode 0xFF 0 ∧
    (after (before 255 [0x01])).run = .aborted :=
  ⟨witness_DecodeInvertsEncode.1, rfl, rfl, rfl, rfl, rfl, rfl, rfl⟩
theorem witness_TraceOnlyGrows :
    cycle defaultConfig (before 0 [0x47, 7]) = .next (after (before 0 [0x47, 7])) ∧
    (after (before 0 [0x47, 7])).trace = [.out 0xF4] ∧ (after (before 0 [0xFF])).trace = [.diag 0xFF 0] ∧
    (after (before 0 [0x82])).trace = [] := ⟨rfl, rfl, rfl, rfl⟩
theorem witness_RereadGivesTheFetchedOperand :
    Function.Injective defaultConfig.opc ∧ (before 253 [0x45, 7]).run = .running ∧ (before 253 [0x45, 7]).pc ≤ 253 ∧
    opcodeAt (before 253 [0x45, 7]) = defaultConfig.opc .push ∧ operandA (before 253 [0x45, 7]) = BitVec.ofNat 8 7 ∧
    Memory.wf (before 253 [0x45, 7]).mem = true ∧
    opcodeAt (beforeStack 0 [0x46, 0] 255 255 5 0 0) = defaultConfig.opc .pop ∧
    operandA (beforeStack 0 [0x46, 0] 255 255 5 0 0) = BitVec.ofNat 8 0 ∧
    0 ≤ (beforeStack 0 [0x46, 0] 255 255 5 0 0).sp ∧ (beforeStack 0 [0x46, 0] 255 255 5 0 0).sp ≤ 255 ∧
    Memory.wf (beforeStack 0 [0x46, 0] 255 255 5 0 0).mem = true := ⟨witness_DecodeInvertsEncode.1, by decide⟩
/-- A PUSH at 0 with `sp` 3 stores at 2, the next `pc`; a CALL to 243 stores its return address at 243. -/
theorem witness_StoreIsSeenByTheNextFetch :
    Memory.wf (beforeStack 0 [0x45, 0] 3 244 0 0x11 0).mem = true ∧
    (ran (.push 0) (beforeStack 0 [0x45, 0] 3 244 0 0x11 0)).pc ≤ 253 ∧
    CompletesWith (ran (.push 0) (beforeStack 0 [0x45, 0] 3 244 0 0x11 0))
      (exec (.push 0) (beforeStack 0 [0x45, 0] 3 244 0 0x11 0)) ∧
    ((ran (.push 0) (beforeStack 0 [0x45, 0] 3 244 0 0x11 0)).pc : Int) = pushSp (beforeStack 0 [0x45, 0] 3 244 0 0x11 0) ∧
    operandA (beforeStack 0 [0x45, 0] 3 244 0 0x11 0) = BitVec.ofNat 8 0 ∧
    CompletesWith (ran (.call 1) (beforeStack 0 [0x50, 1] 244 244 0 0 243))
      (exec (.call 1) (beforeStack 0 [0x50, 1] 244 244 0 0 243)) ∧
    ((ran (.call 1) (beforeStack 0 [0x50, 1] 244 244 0 0 243)).pc : Int) = callSp (beforeStack 0 [0x50, 1] 244 244 0 0 243) :=
  ⟨by decide, by decide, ran_completes _ _ (by decide), by decide, by decide, ran_completes _ _ (by decide), by decide⟩
theorem witness_PlacedWordIsRunNext :
    Memory.wf (before 256 []).mem = true ∧ decodeTableWord 24 0xFFFF82 = some (.ldi 255 0xFF) ∧
    decodeTableWord 8 0xFF01 = some .hlt := by decide
theorem witness_RegisterWritersFrame :
    CompletesWith (ran (.ldi 7 255) State.reset) (exec (.ldi 7 255) State.reset) ∧
    CompletesWith (ran (.mul 0 0) State.reset) (exec (.mul 0 0) State.reset) ∧
    CompletesWith (ran (.add 0 7) State.reset) (exec (.add 0 7) State.reset) :=
  ⟨ran_completes _ _ (by decide), ran_completes _ _ (by decide), ran_completes _ _ (by decide)⟩
theorem witness_StackWritersFrame :
    CompletesWith (ran (.push 0) (beforeStack 0 [0x45, 0] 0 244 0 7 0)) (exec (.push 0) (beforeStack 0 [0x45, 0] 0 244 0 7 0)) ∧
    pushSp (beforeStack 0 [0x45, 0] 0 244 0 7 0) = 255 ∧
    CompletesWith (ran (.call 1) (beforeStack 0 [0x50, 1] 1 244 0 7 0)) (exec (.call 1) (beforeStack 0 [0x50, 1] 1 244 0 7 0)) ∧
    callSp (beforeStack 0 [0x50, 1] 1 244 0 7 0) = 0 ∧ Memory.wf (beforeStack 0 [0x45, 0] 0 244 0 7 0).mem = true ∧
    operandA (beforeStack 0 [0x45, 0] 0 244 0 7 0) = BitVec.ofNat 8 0 :=
  ⟨ran_completes _ _ (by decide), by decide, ran_completes _ _ (by decide), by decide, by decide, by decide⟩
theorem witness_StackReadersFrame :
    CompletesWith (ran (.pop 0) (beforeStack 0 [0x46, 0] 255 255 7 0 0)) (exec (.pop 0) (beforeStack 0 [0x46, 0] 255 255 7 0 0)) ∧
    CompletesWith (ran .ret (beforeStack 0 [0x11] 255 255 7 0 0)) (exec .ret (beforeStack 0 [0x11] 255 255 7 0 0)) :=
  ⟨ran_completes _ _ (by decide), ran_completes _ _ (by decide)⟩
theorem witness_NonStoringFrame :
    CompletesWith (ran (.prn 7) State.reset) (exec (.prn 7) State.reset) ∧
    CompletesWith (ran (.cmp 0 7) State.reset) (exec (.cmp 0 7) State.reset) ∧
    CompletesWith (ran (.jmp 7) State.reset) (exec (.jmp 7) State.reset) ∧
    CompletesWith (ran (.jeq 255) State.reset) (exec (.jeq 255) State.reset) ∧
    CompletesWith (ran (.jne 0) (withE .zero .one .zero State.reset)) (exec (.jne 0) (withE .zero .one .zero State.reset)) :=
  ⟨ran_completes _ _ (by decide), ran_completes _ _ (by decide), ran_completes _ _ (by decide), ran_completes _ _ (by decide), ran_completes _ _ (by decide)⟩
/-- For StackPointerTable and the whole-machine rules over completed instructions: a completing RET at its upper bound. -/
theorem witness_StackPointerTable :
    CompletesWith (ran .ret (beforeStack 0 [0x11] 255 255 7 0 0)) (exec .ret (beforeStack 0 [0x11] 255 255 7 0 0)) ∧
    (ran .ret (beforeStack 0 [0x11] 255 255 7 0 0)).sp = 256 := ⟨ran_completes _ _ (by decide), by decide⟩
theorem witness_OnlyCmpWritesFlags :
    (Instr.add 0 7).mnemonic ≠ .cmp ∧ CompletesWith (ran (.add 0 7) State.reset) (exec (.add 0 7) State.reset) :=
  ⟨by decide, ran_completes _ _ (by decide)⟩
theorem witness_OnlyPushAndCallWriteMemory :
    (Instr.pop 0).mnemonic ≠ .push ∧ (Instr.pop 0).mnemonic ≠ .call ∧
    CompletesWith (ran (.pop 0) State.reset) (exec (.pop 0) State.reset) := ⟨by decide, by decide, ran_completes _ _ (by decide)⟩
theorem witness_OnlyFourInstructionsWriteRegisters :
    (Instr.push 0).mnemonic ∉ [Mnemonic.ldi, .mul, .add, .pop] ∧
    CompletesWith (ran (.push 0) State.reset) (exec (.push 0) State.reset) := ⟨by decide, ran_completes _ _ (by decide)⟩
/-- A sequential instruction, and the two conditional jumps where they are not taken. -/
theorem witness_SequentialInstructionsAdvanceByWidth :
    (Instr.ldi 7 1).mnemonic ∉ [Mnemonic.hlt, .call, .ret, .jmp] ∧
    CompletesWith (ran (.ldi 7 1) State.reset) (exec (.ldi 7 1) State.reset) ∧
    State.reset.flagE ≠ .one ∧ CompletesWith (ran (.jeq 255) State.reset) (exec (.jeq 255) State.reset) ∧
    State.reset.flagE ≠ .zero ∧ CompletesWith (ran (.jne 255) State.reset) (exec (.jne 255) State.reset) :=
  ⟨by decide, ran_completes _ _ (by decide), by decide, ran_completes _ _ (by decide), by decide, ran_completes _ _ (by decide)⟩
theorem witness_LessAndGreaterAreNeverRead :
    CompletesWith (ran (.cmp 0 7) State.reset) (exec (.cmp 0 7) State.reset) ∧
    CompletesWith (ran (.jne 0) (withE .zero .one .zero State.reset)) (exec (.jne 0) (withE .zero .one .zero State.reset)) :=
  ⟨ran_completes _ _ (by decide), ran_completes _ _ (by decide)⟩
/-- PUSH R7 at 0 and POP R7 at 2, with `sp` 255 and with `sp` 256. -/
theorem witness_PushPopRoundTrip :
    Memory.wf (beforeStack 0 [0x45, 7, 0x46, 7] 255 255 0 0 0).mem = true ∧
    (beforeStack 0 [0x45, 7, 0x46, 7] 255 255 0 0 0).pc + 3 < 256 ∧
    operandA (beforeStack 0 [0x45, 7, 0x46, 7] 255 255 0 0 0) = BitVec.ofNat 8 7 ∧
    Memory.read (beforeStack 0 [0x45, 7, 0x46, 7] 255 255 0 0 0).mem 3 = BitVec.ofNat 8 7 ∧
    pushSp (beforeStack 0 [0x45, 7, 0x46, 7] 255 255 0 0 0) ≠ 3 ∧
    (beforeStack 0 [0x45, 7, 0x46, 7] 255 255 0 0 0).sp ≤ 255 ∧ (beforeStack 0 [0x45, 7, 0x46, 7] 256 255 0 0 0).sp = 256 ∧
    pushSp (beforeStack 0 [0x45, 7, 0x46, 7] 256 255 0 0 0) ≠ 3 := by decide
theorem witness_CallRetRoundTrip :
    Memory.wf (beforeStack 253 [0x50, 1] 1 244 0 0 11).mem = true ∧ (beforeStack 253 [0x50, 1] 1 244 0 0 11).pc ≤ 253 ∧
    1 ≤ (beforeStack 253 [0x50, 1] 1 244 0 0 11).sp ∧ (beforeStack 0 [0x50, 1] 256 244 0 0 11).sp ≤ 256 ∧
    (ran (.call 1) (beforeStack 253 [0x50, 1] 1 244 0 0 11)).sp = 0 ∧
    Memory.read (ran (.call 1) (beforeStack 253 [0x50, 1] 1 244 0 0 11)).mem 0 = 255 := by decide
theorem witness_LoadedCoresMeetTheInvariant :
    resetLegal defaultConfig ∧ resetLegal { defaultConfig with pcReset := 256, spReset := 256 } ∧
    resetLegal { defaultConfig with spReset := 0 } :=
  ⟨⟨by decide, by decide, by decide⟩, ⟨by decide, by decide, by decide⟩, ⟨by decide, by decide, by decide⟩⟩
/-- A Running state at the bounds of `pc` and `sp` that meets the invariant, and its step. -/
theorem witness_StepKeepsTheInvariant :
    State.Inv (beforeStack 256 [] 256 244 1 0 0) ∧
    cycle defaultConfig (beforeStack 256 [] 256 244 1 0 0) = .next (after (beforeStack 256 [] 256 244 1 0 0)) ∧
    State.Inv (beforeStack 253 [0x11] 255 255 1 0 0) ∧
    cycle defaultConfig (beforeStack 253 [0x11] 255 255 1 0 0) = .next (after (beforeStack 253 [0x11] 255 255 1 0 0)) :=
  ⟨⟨by decide, by decide, by decide, by decide, by decide, by decide, by decide⟩, rfl,
    ⟨by decide, by decide, by decide, by decide, by decide, by decide, by decide⟩, rfl⟩
theorem witness_ReachableStatesMeetTheInvariant :
    resetLegal defaultConfig ∧ Reachable defaultConfig (State.load [0x01] (by decide) (State.resetOf defaultConfig)) :=
  ⟨⟨by decide, by decide, by decide⟩, .start [0x01] (by decide)⟩

end Sys2Proof.Tests
end

namespace Sys2Proof.Machine

/-! ### What an instruction leaves unchanged, and what a step can do

`EffectFrame` says once which instruction may write which part of the state (10_state.md R25, R31, R33, R36; 20_memory.md
R51); every statement about completed instructions reads its part off it. -/

/-- The new `sp` of a completed instruction (R31). -/
def spAfter (m : Mnemonic) (s : State) : Int :=
  match m with
  | .push => pushSp s
  | .pop => popSp s
  | .call => callSp s
  | .ret => retSp s
  | _ => s.sp

/-- What an instruction of mnemonic `m` that took `s` to `t` left unchanged, and its `sp`. -/
structure EffectFrame (m : Mnemonic) (s t : State) : Prop where
  sp : t.sp = spAfter m s
  flags : m ≠ .cmp → SameFlags s t
  regs : m ∉ [Mnemonic.ldi, .mul, .add, .pop] → t.regs = s.regs
  mem : m ≠ .push → m ≠ .call → t.mem = s.mem
  runAndCause : m ≠ .hlt → t.run = s.run ∧ t.cause = s.cause
  trace : m ≠ .prn → t.trace = s.trace

/-- An instruction writes only what its row allows. -/
theorem effect_frame {i : Instr} {s t : State} (h : Effect i s t) : EffectFrame i.mnemonic s t := by
  cases i
  case' hlt => subst h
  case' ldi | prn | jmp => obtain ⟨_, rfl⟩ := h
  case' mul | add | push | ret | cmp => obtain ⟨_, _, rfl⟩ := h
  case' call => obtain ⟨_, _, _, rfl⟩ := h
  case' pop => obtain ⟨_, _, _, _, rfl⟩ := h
  case' jeq | jne => obtain ⟨_, _, rfl⟩ | ⟨_, rfl⟩ := h
  all_goals constructor <;> simp [Instr.mnemonic, spAfter, SameFlags]

/-- The frame of an instruction that completes. -/
theorem frame_of_completes {i : Instr} {s t : State} (h : CompletesWith t (exec i s)) : EffectFrame i.mnemonic s t :=
  effect_frame (effect_of_completes h)

/-- HLT halts with its cause (R120). -/
theorem effect_hlt_record {i : Instr} {s t : State} (h : Effect i s t) (hi : i.mnemonic = .hlt) :
    t.run = .halted ∧ t.cause = .hlt := by
  cases i <;> cases hi
  subst h
  exact ⟨rfl, rfl⟩

/-- PRN appends one output (R122). -/
theorem effect_prn_trace {i : Instr} {s t : State} (h : Effect i s t) (hi : i.mnemonic = .prn) :
    ∃ v, t.trace = s.trace ++ [.out v] := by
  cases i <;> cases hi
  obtain ⟨_, rfl⟩ := h
  exact ⟨_, rfl⟩

/-- The state after a step of a Running core: a fetch abort, the unknown-opcode event, or the effect or the abort of the
instruction its three bytes decode to. -/
theorem cycle_next_cases {c : Config} {s t : State} (hr : s.run = .running) (h : cycle c s = .next t) :
    (254 ≤ s.pc ∧ t = abort .memory (if s.pc ≤ 256 then 256 else s.pc) s) ∨
    (s.pc ≤ 253 ∧ resolve c (opcodeAt s) = none ∧ t = unknownOpcode (opcodeAt s) s) ∨
    (s.pc ≤ 253 ∧ ∃ m, resolve c (opcodeAt s) = some m ∧
      (Effect (m.withOperands (operandA s) (operandB s)) s t ∨
        ∃ k v, t = abort k v s ∧ Trouble (m.withOperands (operandA s) (operandB s)) s k v)) := by
  rcases cycle_running c hr with ⟨hpc, e⟩ | ⟨hpc, hm, e⟩ | ⟨hpc, m, hm, e⟩
  · rw [e] at h
    cases h
    exact .inl ⟨hpc, rfl⟩
  · rw [e] at h
    cases h
    exact .inr (.inl ⟨hpc, hm, rfl⟩)
  · refine .inr (.inr ⟨hpc, m, hm, ?_⟩)
    rw [e] at h
    rcases exec_cases (m.withOperands (operandA s) (operandB s)) s with ⟨u, e', hu⟩ | ⟨k, v, e', hk⟩
    · rw [e'] at h
      cases h
      exact .inl hu
    · rw [e'] at h
      cases h
      exact .inr ⟨k, v, rfl, hk⟩

/-! ### The invariant through a step -/

/-- While Running no cause is recorded (R35). -/
theorem State.Inv.cause_none {s : State} (h : State.Inv s) (hr : s.run = .running) : s.cause = .none := by
  have hc := h.causeTellsRun
  cases e : s.cause <;> simp [State.causeTellsRun, hr, e] at hc
  rfl

/-- While Running the trace holds outputs only (R36). -/
theorem State.Inv.trace_outs {s : State} (h : State.Inv s) (hr : s.run = .running) :
    s.trace.all Event.isOut = true := by
  have ht := h.traceLegal
  rwa [State.traceLegal, h.cause_none hr] at ht

/-- The comparator leaves legal flags: exactly one of the three relations holds (R160). -/
theorem flagsLegal_compareFlags (va vb : Byte) (s : State) : (compareFlags va vb s).flagsLegal = true := by
  rcases Nat.lt_trichotomy va.toNat vb.toNat with h | h | h
  · simp [State.flagsLegal, flagOf, h, Nat.ne_of_lt h, Nat.not_lt_of_gt h]
  · simp [State.flagsLegal, flagOf, h]
  · simp [State.flagsLegal, flagOf, h, Nat.ne_of_gt h, Nat.not_lt_of_gt h]

/-- Whether the flags are legal depends on the flags only. -/
theorem SameFlags.flagsLegal_eq {s t : State} (h : SameFlags s t) : t.flagsLegal = s.flagsLegal := by
  obtain ⟨hE, hL, hG⟩ := h
  simp only [State.flagsLegal, hE, hL, hG]

/-- The flags stay legal: CMP writes all three, no other instruction any (R33). -/
theorem effect_flagsLegal {i : Instr} {s t : State} (h : Effect i s t) (hs : s.flagsLegal = true) :
    t.flagsLegal = true := by
  by_cases hi : i.mnemonic = .cmp
  · cases i <;> cases hi
    obtain ⟨_, _, rfl⟩ := h
    exact flagsLegal_compareFlags _ _ s
  · rw [((effect_frame h).flags hi).flagsLegal_eq, hs]

/-- Memory stays canonical: PUSH and CALL write inside memory, no other instruction writes it (R51). -/
theorem effect_wf {i : Instr} {s t : State} (h : Effect i s t) (hs : Memory.wf s.mem = true) :
    Memory.wf t.mem = true := by
  by_cases hpush : i.mnemonic = .push
  · cases i <;> cases hpush
    obtain ⟨_, _, rfl⟩ := h
    have := pushSp_range s
    exact wf_write hs (by omega) _
  by_cases hcall : i.mnemonic = .call
  · cases i <;> cases hcall
    obtain ⟨_, h0, h1, rfl⟩ := h
    exact wf_write hs (by omega) _
  rw [(effect_frame h).mem hpush hcall]
  exact hs

/-- `pc` stays an address up to 256: it advances by at most 3 from at most 253, or takes a byte (R28). -/
theorem effect_pc_range {i : Instr} {s t : State} (h : Effect i s t) (hs : s.pc ≤ 253) : t.pc ≤ 256 := by
  cases i with
  | hlt =>
    subst h
    show s.pc + 1 ≤ 256
    omega
  | ldi a b | prn a =>
    obtain ⟨_, rfl⟩ := h
    show s.pc + _ ≤ 256
    omega
  | mul a b | add a b | push a | cmp a b =>
    obtain ⟨_, _, rfl⟩ := h
    show s.pc + _ ≤ 256
    omega
  | pop a =>
    obtain ⟨_, _, _, _, rfl⟩ := h
    show s.pc + _ ≤ 256
    omega
  | ret =>
    obtain ⟨_, _, rfl⟩ := h
    exact (BitVec.isLt _).le
  | jmp a =>
    obtain ⟨_, rfl⟩ := h
    exact (BitVec.isLt _).le
  | call a =>
    obtain ⟨_, _, _, rfl⟩ := h
    exact (BitVec.isLt _).le
  | jeq a | jne a =>
    obtain ⟨_, _, rfl⟩ | ⟨_, rfl⟩ := h
    · exact (BitVec.isLt _).le
    · show s.pc + _ ≤ 256
      omega

/-- `sp` stays within 0 to 256: PUSH and POP reduce it, and the unreduced `sp` of CALL and RET is next to the cell they
accessed (R30, R31). -/
theorem effect_sp_range {i : Instr} {s t : State} (h : Effect i s t) (hs : 0 ≤ s.sp ∧ s.sp ≤ 256) :
    0 ≤ t.sp ∧ t.sp ≤ 256 := by
  rw [(effect_frame h).sp]
  cases i with
  | push a | pop a =>
    simp only [Instr.mnemonic, spAfter, pushSp, popSp]
    omega
  | call a =>
    obtain ⟨_, h0, h1, _⟩ := h
    exact ⟨h0, h1.le⟩
  | ret =>
    obtain ⟨h0, h1, _⟩ := h
    simp only [Instr.mnemonic, spAfter, retSp]
    omega
  | _ => exact hs

/-- An abort may record an index from 8 to 255 (R183). -/
theorem abort_register_legal {a : Nat} (h8 : 8 ≤ a) (ha : a < 256) (s : State) :
    (abort .register a s).causeValueLegal = true := by
  simp only [State.causeValueLegal, abort_cause, decide_eq_true_eq]
  omega

/-- An abort may record the addresses 256 and -1 (R182). -/
theorem abort_memory_legal {v : Int} (h : v = 256 ∨ v = -1) (s : State) :
    (abort .memory v s).causeValueLegal = true := by
  simpa only [State.causeValueLegal, abort_cause, decide_eq_true_eq] using h

/-- The values the abort of a fetched instruction can record (R182, R183): its stack access is outside memory only at 256
or -1, and a bad index is an operand byte of 8 or more. -/
theorem trouble_value_legal {i : Instr} {s : State} {k : AccessKind} {v : Int} (h : Trouble i s k v)
    (hi : i.wellFormed = true) (hpc : s.pc ≤ 253) (hsp : 0 ≤ s.sp ∧ s.sp ≤ 256) :
    (abort k v s).causeValueLegal = true := by
  have hA := (operandA s).isLt
  cases i with
  | hlt => exact h.elim
  | ldi a b | prn a | jmp a =>
    obtain ⟨rfl, rfl, h8⟩ := h
    exact abort_register_legal h8 (of_decide_eq_true hi) s
  | jeq a | jne a =>
    obtain ⟨rfl, rfl, h8, _⟩ := h
    exact abort_register_legal h8 (of_decide_eq_true hi) s
  | mul a b | add a b | cmp a b =>
    have hab : a < 256 ∧ b < 256 := by simpa [Instr.wellFormed, isOperandByte] using hi
    obtain ⟨rfl, ⟨rfl, h8⟩ | ⟨rfl, h8, _⟩⟩ := h
    · exact abort_register_legal h8 hab.1 s
    · exact abort_register_legal h8 hab.2 s
  | push a =>
    obtain ⟨_, hout, _⟩ | ⟨rfl, rfl, h8, _⟩ := h
    · omega
    · exact abort_register_legal h8 hA s
  | pop a =>
    obtain ⟨_, hout, _⟩ | ⟨rfl, rfl, hout, _⟩ | ⟨rfl, rfl, h8, _⟩ := h
    · omega
    · exact abort_memory_legal (by omega) s
    · exact abort_register_legal h8 hA s
  | call a =>
    obtain ⟨rfl, rfl, hout⟩ | ⟨rfl, rfl, h8, _⟩ := h
    · exact abort_memory_legal (by unfold callSp at *; omega) s
    · exact abort_register_legal h8 (of_decide_eq_true hi) s
  | ret =>
    obtain ⟨rfl, rfl, hout⟩ := h
    exact abort_memory_legal (by omega) s

/-- An abort from a Running state keeps the invariant where the value it records is one the spec lists: only the form of
memory, the record and the trace are left to show (R181). -/
theorem inv_abort {s : State} {k : AccessKind} {v : Int} (h : State.Inv s) (hr : s.run = .running)
    (hv : (abort k v s).causeValueLegal = true) : State.Inv (abort k v s) where
  memCanonical := wf_ofBytes _
  pcInRange hne := absurd rfl hne
  spInRange hne := absurd rfl hne
  flagsLegal hne := absurd rfl hne
  causeTellsRun := rfl
  causeValueLegal := hv
  traceLegal := h.trace_outs hr

/-- The unknown-opcode event keeps the invariant: its diagnostic is appended to outputs only (R106). -/
theorem inv_unknownOpcode {s : State} (h : State.Inv s) (hr : s.run = .running) (hpc : s.pc ≤ 253) (op : Byte) :
    State.Inv (unknownOpcode op s) := by
  have hna : s.run ≠ .aborted := by simp [hr]
  exact {
    memCanonical := h.memCanonical
    pcInRange := fun _ => h.pcInRange hna
    spInRange := fun _ => h.spInRange hna
    flagsLegal := fun _ => h.flagsLegal hna
    causeTellsRun := rfl
    causeValueLegal := by simp [State.causeValueLegal, hpc]
    traceLegal := by simpa [State.traceLegal] using h.trace_outs hr }

/-- A completed instruction leaves a Running core without a cause so, or Halted by HLT (R34, R35). -/
theorem effect_record {i : Instr} {s t : State} (h : Effect i s t) (hr : s.run = .running) (hc : s.cause = .none) :
    (t.run = .halted ∧ t.cause = .hlt) ∨ (t.run = .running ∧ t.cause = .none) := by
  by_cases hi : i.mnemonic = .hlt
  · exact .inl (effect_hlt_record h hi)
  · obtain ⟨hrun, hcause⟩ := (effect_frame h).runAndCause hi
    exact .inr ⟨hrun.trans hr, hcause.trans hc⟩

/-- A completed instruction appends nothing but outputs to the trace. -/
theorem effect_trace_outs {i : Instr} {s t : State} (h : Effect i s t) (hs : s.trace.all Event.isOut = true) :
    t.trace.all Event.isOut = true := by
  by_cases hi : i.mnemonic = .prn
  · obtain ⟨v, e⟩ := effect_prn_trace h hi
    simp [e, hs, Event.isOut]
  · rw [(effect_frame h).trace hi, hs]

/-- A completed instruction of a Running core keeps the invariant. -/
theorem inv_effect {i : Instr} {s t : State} (h : State.Inv s) (hr : s.run = .running) (hpc : s.pc ≤ 253)
    (he : Effect i s t) : State.Inv t := by
  have hna : s.run ≠ .aborted := by simp [hr]
  have hrec := effect_record he hr (h.cause_none hr)
  have houts := effect_trace_outs he (h.trace_outs hr)
  exact {
    memCanonical := effect_wf he h.memCanonical
    pcInRange := fun _ => effect_pc_range he hpc
    spInRange := fun _ => effect_sp_range he (h.spInRange hna)
    flagsLegal := fun _ => effect_flagsLegal he (h.flagsLegal hna)
    causeTellsRun := by
      obtain ⟨e1, e2⟩ | ⟨e1, e2⟩ := hrec <;> simp [State.causeTellsRun, e1, e2]
    causeValueLegal := by
      obtain ⟨_, e⟩ | ⟨_, e⟩ := hrec <;> simp [State.causeValueLegal, e]
    traceLegal := by
      obtain ⟨_, e⟩ | ⟨_, e⟩ := hrec <;> simpa only [State.traceLegal, e] using houts }

/-- Settles O54: a terminal state is kept as it is, and each way a step of a Running core can end keeps the invariant. -/
theorem stepKeepsTheInvariant : Obligations.StepKeepsTheInvariant := by
  intro c s t hs h
  by_cases hr : s.run = .running
  · have hna : s.run ≠ .aborted := by simp [hr]
    have hpc256 := hs.pcInRange hna
    obtain ⟨_, rfl⟩ | ⟨hpc, _, rfl⟩ | ⟨hpc, m, _, he | ⟨k, v, rfl, hk⟩⟩ := cycle_next_cases hr h
    · exact inv_abort hs hr (abort_memory_legal (.inl (if_pos hpc256)) s)
    · exact inv_unknownOpcode hs hr hpc _
    · exact inv_effect hs hr hpc he
    · exact inv_abort hs hr (trouble_value_legal hk (wellFormed_withOperands _ _ _) hpc (hs.spInRange hna))
  · rw [cycle_terminal c hr] at h
    cases h
    exact hs

/-! ### Run state and trace through a step -/

/-- Settles O35: the opcode byte resolves to HLT, to another mnemonic, or to none, and any other end is an abort. -/
theorem runEndsInThreeWays : Obligations.RunEndsInThreeWays := by
  intro c s t hinj hr h
  obtain ⟨_, rfl⟩ | ⟨_, hm, rfl⟩ | ⟨_, m, hm, he | ⟨k, v, rfl, _⟩⟩ := cycle_next_cases hr h
  · exact .inr (.inr (.inr ⟨rfl, _, _, rfl⟩))
  · exact .inr (.inr (.inl ⟨rfl, rfl, resolve_eq_none.mp hm⟩))
  · have hop := opc_of_resolve hm
    by_cases hhlt : m = .hlt
    · obtain ⟨hrun, hcause⟩ := effect_hlt_record he (by simp [hhlt])
      exact .inr (.inl ⟨hrun, hcause, hhlt ▸ hop.symm⟩)
    · obtain ⟨hrun, hcause⟩ := (effect_frame he).runAndCause (by simpa using hhlt)
      exact .inl ⟨hrun.trans hr, hcause, fun e => hhlt (hinj (hop.trans e)), m, hop⟩
  · exact .inr (.inr (.inr ⟨rfl, _, _, rfl⟩))

/-- Settles O36: only the effect of PRN and the unknown-opcode event append to the trace. -/
theorem traceOnlyGrows : Obligations.TraceOnlyGrows := by
  intro c s t h
  by_cases hr : s.run = .running
  · obtain ⟨_, rfl⟩ | ⟨_, _, rfl⟩ | ⟨_, m, hm, he | ⟨k, v, rfl, _⟩⟩ := cycle_next_cases hr h
    · exact .inl rfl
    · exact .inr (.inr ⟨rfl, hr, rfl, rfl⟩)
    · have frame := effect_frame he
      rw [mnemonic_withOperands] at frame
      by_cases hprn : m = .prn
      · obtain ⟨v, htrace⟩ := effect_prn_trace he (by simp [hprn])
        obtain ⟨hrun, _⟩ := frame.runAndCause (by simp [hprn])
        exact .inr (.inl ⟨v, htrace, hr, hprn ▸ (opc_of_resolve hm).symm, hrun.trans hr⟩)
      · exact .inl (frame.trace hprn)
    · exact .inl rfl
  · rw [cycle_terminal c hr] at h
    cases h
    exact .inl rfl

/-! ### The frames over all instructions -/

/-- Settles O44: the `sp` column of the frame. -/
theorem stackPointerTable : Obligations.StackPointerTable :=
  fun _ _ _ h => (frame_of_completes h).sp

/-- Settles O45: the flags of the frame. -/
theorem onlyCmpWritesFlags : Obligations.OnlyCmpWritesFlags :=
  fun _ _ _ hi h => (frame_of_completes h).flags hi

/-- Settles O47: the registers of the frame. -/
theorem onlyFourInstructionsWriteRegisters : Obligations.OnlyFourInstructionsWriteRegisters :=
  fun _ _ _ hi h j => by rw [(frame_of_completes h).regs hi]

/-! ### Reset and load -/

/-- A core constructed with legal parameters meets the invariant (R39). -/
theorem inv_resetOf {c : Config} (hc : resetLegal c) : State.Inv (State.resetOf c) where
  memCanonical := rfl
  pcInRange _ := hc.1
  spInRange _ := hc.2
  flagsLegal _ := rfl
  causeTellsRun := rfl
  causeValueLegal := rfl
  traceLegal := rfl

/-- A load keeps the invariant: it writes memory only, in canonical form (R212). -/
theorem inv_load {s : State} (h : State.Inv s) (image : List Byte) (fits : image.length ≤ 256) :
    State.Inv (State.load image fits s) where
  memCanonical := by simp
  pcInRange := h.pcInRange
  spInRange := h.spInRange
  flagsLegal := h.flagsLegal
  causeTellsRun := h.causeTellsRun
  causeValueLegal := h.causeValueLegal
  traceLegal := h.traceLegal

/-- Settles O53: the reset state of legal parameters meets the invariant, and a load keeps it. -/
theorem loadedCoresMeetTheInvariant : Obligations.LoadedCoresMeetTheInvariant :=
  fun _ image fits hc => inv_load (inv_resetOf hc) image fits

/-- Settles O52: the default parameters are legal. -/
theorem resetMeetsTheInvariant : Obligations.ResetMeetsTheInvariant :=
  inv_resetOf (c := defaultConfig) ⟨by decide, by decide, by decide⟩

/-- Settles O11: the reset values field by field (R39). -/
theorem resetStateIsAsTabulated : Obligations.ResetStateIsAsTabulated :=
  ⟨read_nil, by decide, rfl, rfl, rfl, rfl, rfl, rfl, rfl, rfl, rfl⟩

/-! ### The register file -/

/-- Settles O9: the two answers of `regRead`. -/
theorem regReadIsBoundsChecked : Obligations.RegReadIsBoundsChecked :=
  fun s i => ⟨fun h => regRead_in i h s, fun h => regRead_out h s⟩

/-- Settles O10: `regWrite` sets one register of the file to the residue of the value. -/
theorem regWriteChangesOneRegister : Obligations.RegWriteChangesOneRegister := by
  intro s i v
  refine ⟨fun h => ⟨_, regWrite_in i h v s, ?_, fun j hj hne => ?_, rfl⟩, fun h => regWrite_out h v s⟩
  · simp
  · exact Vector.getElem_set_ne h hj hne.symm

end Sys2Proof.Machine

namespace Sys2Proof.Machine

/-! ### The memory controller -/

/-- Settles O6: the two answers of `memRead`. -/
theorem memReadIsBoundsChecked : Obligations.MemReadIsBoundsChecked :=
  fun s _ => ⟨fun h0 h1 => memRead_in h0 h1 s, fun h => memRead_out (by omega) s⟩

/-- Settles O7: `memWrite` writes one cell of the array, which the array's read-after-write rules describe. -/
theorem memWriteChangesOneCell : Obligations.MemWriteChangesOneCell := by
  intro s addr v hw
  refine ⟨fun h0 h1 => ⟨_, memWrite_in h0 h1 v s, ?_, fun k hk => ?_, rfl, ?_⟩, fun h => memWrite_out (by omega) v s⟩
  · exact read_write_same hw _ v
  · exact read_write_ne (by omega) v s.mem
  · exact wf_write hw (by omega) v

/-! ### Canonical memories -/

theorem wfFrom_cons {lo k : Nat} {w : Byte} {rest : Memory} :
    Memory.wfFrom lo ((k, w) :: rest) = true ↔
      lo ≤ k ∧ k < 256 ∧ w ≠ 0 ∧ Memory.wfFrom (k + 1) rest = true := by
  simp only [Memory.wfFrom, Bool.and_eq_true, decide_eq_true_eq, and_assoc]
  rfl

@[simp] theorem read_cons_same (k : Nat) (w : Byte) (rest : Memory) : Memory.read ((k, w) :: rest) k = w :=
  if_pos rfl

theorem read_cons_ne {k a : Nat} (h : k ≠ a) (w : Byte) (rest : Memory) :
    Memory.read ((k, w) :: rest) a = Memory.read rest a := if_neg h

/-- A cell that reads as nonzero is not below the least listed address. -/
theorem le_of_read_ne_zero {m : Memory} {lo a : Nat} (h : Memory.wfFrom lo m = true) (ha : Memory.read m a ≠ 0) :
    lo ≤ a :=
  Nat.le_of_not_lt fun hlt => ha (read_below h hlt)

/-- The first listed address is at most every address that reads as nonzero. -/
theorem head_le_of_read_ne_zero {lo k a : Nat} {w : Byte} {rest : Memory}
    (h : Memory.wfFrom lo ((k, w) :: rest) = true) (ha : Memory.read ((k, w) :: rest) a ≠ 0) : k ≤ a := by
  obtain ⟨_, hk, hw, hrest⟩ := wfFrom_cons.mp h
  exact le_of_read_ne_zero (wfFrom_cons.mpr ⟨le_rfl, hk, hw, hrest⟩) ha

/-- Canonical memories that read alike are equal: their first listed addresses bound each other, so their heads agree,
and then their tails read alike. -/
theorem wfFrom_ext {m n : Memory} {lo : Nat} (hm : Memory.wfFrom lo m = true) (hn : Memory.wfFrom lo n = true)
    (h : ∀ a, Memory.read m a = Memory.read n a) : m = n := by
  induction m generalizing n lo with
  | nil =>
    cases n with
    | nil => rfl
    | cons c rest =>
      obtain ⟨k, w⟩ := c
      obtain ⟨_, _, hw, _⟩ := wfFrom_cons.mp hn
      exact absurd (by simpa using (h k).symm) hw
  | cons c rest ih =>
    obtain ⟨k, w⟩ := c
    obtain ⟨_, _, hw, hrest⟩ := wfFrom_cons.mp hm
    cases n with
    | nil => exact absurd (by simpa using h k) hw
    | cons c' rest' =>
      obtain ⟨k', w'⟩ := c'
      obtain ⟨_, _, hw', hrest'⟩ := wfFrom_cons.mp hn
      have hle : k ≤ k' := head_le_of_read_ne_zero hm (by simpa [h k'] using hw')
      have hge : k' ≤ k := head_le_of_read_ne_zero hn (by simpa [← h k] using hw)
      obtain rfl : k = k' := Nat.le_antisymm hle hge
      obtain rfl : w = w' := by simpa using h k
      have htail : ∀ a, Memory.read rest a = Memory.read rest' a := by
        intro a
        by_cases ha : k = a
        · rw [read_below hrest (by omega), read_below hrest' (by omega)]
        · simpa only [read_cons_ne ha] using h a
      rw [ih hrest hrest' htail]

/-- Settles O8: extensionality of the canonical form from address 0. -/
theorem canonicalMemoryIsItsBytes : Obligations.CanonicalMemoryIsItsBytes :=
  fun _ _ hm hn h => wfFrom_ext hm hn h

/-! ### Stores of instructions -/

/-- Settles O46: the memory of the frame. -/
theorem onlyPushAndCallWriteMemory : Obligations.OnlyPushAndCallWriteMemory :=
  fun _ _ _ hpush hcall h k => by rw [(frame_of_completes h).mem hpush hcall]

/-- PUSH stores the register its operand byte names at the decremented, reduced `sp` (R141). -/
theorem read_effect_push {passed : Nat} {s t : State} (h : Effect (.push passed) s t) (hw : Memory.wf s.mem = true)
    {i : Fin 8} (hi : operandA s = BitVec.ofNat 8 i) : Memory.read t.mem (pushSp s).toNat = s.regs[i] := by
  obtain ⟨_, _, rfl⟩ := h
  have hidx : (operandA s).toNat = i := by
    rw [hi, BitVec.toNat_ofNat]
    omega
  simp [read_write_same hw, hidx]

/-- CALL stores the return address at the decremented, unreduced `sp` (R150). -/
theorem read_effect_call {a : Nat} {s t : State} (h : Effect (.call a) s t) (hw : Memory.wf s.mem = true) :
    Memory.read t.mem (callSp s).toNat = returnAddress s := by
  obtain ⟨_, _, _, rfl⟩ := h
  exact read_write_same hw _ _

/-- The opcode byte a fetch gives is the byte memory holds at `pc` (R60, R63). -/
theorem fetch_of_read {t : State} {addr : Int} {v : Byte} (hpc : t.pc ≤ 253) (haddr : (t.pc : Int) = addr)
    (hv : Memory.read t.mem addr.toNat = v) : fetch t = .ok (v, operandA t, operandB t) := by
  subst haddr hv
  exact fetch_in hpc

/-- Settles O38: the fetch reads the byte the store wrote. -/
theorem storeIsSeenByTheNextFetch : Obligations.StoreIsSeenByTheNextFetch := by
  intro s t passed hw hpc
  constructor
  · intro h haddr i hi
    exact fetch_of_read hpc haddr (read_effect_push (effect_of_completes h) hw hi)
  · intro h haddr
    exact fetch_of_read hpc haddr (read_effect_call (effect_of_completes h) hw)

end Sys2Proof.Machine

namespace Sys2Proof

/-! ### The encoding: operand bytes and widths -/

@[simp] theorem indexByte_toNat (b : Byte) : indexByte b.toNat = b := BitVec.ofNat_toNat 8 b

theorem toNat_indexByte {i : Nat} (h : isOperandByte i = true) : (indexByte i).toNat = i :=
  (BitVec.toNat_ofNat i 8).trans (Nat.mod_eq_of_lt (of_decide_eq_true h))

theorem width_pos (m : Mnemonic) : 1 ≤ m.width := by cases m <;> decide

theorem width_le_three (m : Mnemonic) : m.width ≤ 3 := by cases m <;> decide

/-- An instruction's width counts its opcode byte and the operand bytes of its format (R83). -/
theorem length_operandBytes_add_one (i : Instr) : i.operandBytes.length + 1 = i.mnemonic.width := by
  cases i <;> rfl

/-- Read back as raw operands, the operand bytes of a well-formed instruction give it, whatever bytes follow. -/
theorem withOperands_operandBytes {i : Instr} (hi : i.wellFormed = true) (rest : List Byte) :
    i.mnemonic.withOperands ((i.operandBytes ++ rest).getD 0 0) ((i.operandBytes ++ rest).getD 1 0) = i := by
  cases i <;>
    simp_all [Instr.mnemonic, Mnemonic.withOperands, Instr.operandBytes, Instr.wellFormed, toNat_indexByte]

/-- The operand bytes of a decoded instruction are the bytes its width takes. -/
theorem operandBytes_withOperands {m : Mnemonic} {tail : List Byte} (h : m.width ≤ tail.length + 1) :
    (m.withOperands (tail.getD 0 0) (tail.getD 1 0)).operandBytes = tail.take (m.width - 1) := by
  rcases tail with _ | ⟨a, _ | ⟨b, rest⟩⟩ <;> cases m <;>
    simp_all [Mnemonic.withOperands, Instr.operandBytes, Mnemonic.width]

/-! ### The list decoder -/

/-- When the list decoder answers an instruction, and which. -/
theorem decodeBytes_eq_ok {c : Config} {bytes : List Byte} {i : Instr} {rest : List Byte} :
    decodeBytes c bytes = .ok (i, rest) ↔
      ∃ op tail m, bytes = op :: tail ∧ resolve c op = some m ∧ m.width ≤ tail.length + 1 ∧
        m.withOperands (tail.getD 0 0) (tail.getD 1 0) = i ∧ tail.drop (m.width - 1) = rest := by
  cases bytes with
  | nil => simp [decodeBytes]
  | cons op tail =>
    cases h : resolve c op with
    | none => simp [decodeBytes, h]
    | some m =>
      by_cases hl : tail.length + 1 < m.width
      · simp [decodeBytes, h, hl]
      · simp [decodeBytes, h, hl, Nat.le_of_not_lt hl]

/-- Settles O2: the opcode byte resolves to the mnemonic, and the operand bytes read back as the operands. -/
theorem decodeInvertsEncode : Obligations.DecodeInvertsEncode := by
  intro c hc i hi rest
  have hlen := length_operandBytes_add_one i
  refine decodeBytes_eq_ok.mpr
    ⟨_, i.operandBytes ++ rest, _, rfl, resolve_opc hc _, ?_, withOperands_operandBytes hi rest, ?_⟩
  · rw [List.length_append]
    omega
  · exact List.drop_left' (by omega)

/-- Settles O3: the decoder took the opcode byte of the mnemonic and the operand bytes of the instruction. -/
theorem encodeInvertsDecode : Obligations.EncodeInvertsDecode := by
  intro c bytes i rest h
  obtain ⟨op, tail, m, rfl, hop, hlen, rfl, rfl⟩ := decodeBytes_eq_ok.mp h
  refine ⟨wellFormed_withOperands m _ _, ?_, length_operandBytes_add_one _⟩
  rw [encode, mnemonic_withOperands, opc_of_resolve hop, operandBytes_withOperands hlen, List.cons_append,
    List.take_append_drop]

/-! ### The step's decoder -/

theorem decode_eq_ok {c : Config} {op a b : Byte} {i : Instr} :
    decode c op a b = .ok i ↔ ∃ m, resolve c op = some m ∧ m.withOperands a b = i := by
  rcases decode_cases c op a b with ⟨m, hm, h⟩ | ⟨hm, h⟩ <;> simp [hm, h]

theorem decode_eq_unknownOpcode {c : Config} {op a b : Byte} :
    decode c op a b = .error (.unknownOpcode op) ↔ resolve c op = none := by
  rcases decode_cases c op a b with ⟨m, hm, h⟩ | ⟨hm, h⟩ <;> simp [hm, h]

/-- A mnemonic of width 1 takes no operand byte (R91). -/
theorem withOperands_of_width_one {m : Mnemonic} (h : m.width = 1) (a b a' b' : Byte) :
    m.withOperands a b = m.withOperands a' b' := by
  cases m <;> cases h <;> rfl

/-- A mnemonic of width 2 takes the first operand byte only (R91). -/
theorem withOperands_of_width_two {m : Mnemonic} (h : m.width = 2) (a b b' : Byte) :
    m.withOperands a b = m.withOperands a b' := by
  cases m <;> cases h <;> rfl

/-- Settles O5: the opcode byte alone is resolved, and the mnemonic takes the operand bytes of its width. -/
theorem bytesBeyondTheWidthAreIgnored : Obligations.BytesBeyondTheWidthAreIgnored := by
  intro c op a b i h
  obtain ⟨m, hop, rfl⟩ := decode_eq_ok.mp h
  rw [mnemonic_withOperands]
  refine ⟨fun hw a' b' => ?_, fun hw b' => ?_, width_pos m, width_le_three m⟩
  · exact decode_eq_ok.mpr ⟨m, hop, withOperands_of_width_one hw a' b' a b⟩
  · exact decode_eq_ok.mpr ⟨m, hop, withOperands_of_width_two hw a b' b⟩

/-! ### Unknown opcodes -/

/-- An opcode byte is unknown exactly when it is not listed among the opcode bytes of the 13 mnemonics (R88). -/
theorem resolve_eq_none_iff_not_mem {c : Config} {op : Byte} :
    resolve c op = none ↔ op ∉ Mnemonic.all.map c.opc := by
  simp [resolve_eq_none, mem_all]

theorem resolve_isSome_iff {c : Config} {op : Byte} : (resolve c op).isSome ↔ op ∈ Mnemonic.all.map c.opc := by
  rw [← not_iff_not, Option.not_isSome_iff_eq_none, resolve_eq_none_iff_not_mem]

/-- The known opcodes, as numbers, are the opcode bytes of the 13 mnemonics in some order. -/
theorem known_opcodes_perm {c : Config} (hc : Function.Injective c.opc) :
    ((List.range 256).filter (fun n => (resolve c (BitVec.ofNat 8 n)).isSome)).Perm
      (Mnemonic.all.map (fun m => (c.opc m).toNat)) := by
  have hinj : Function.Injective (fun m => (c.opc m).toNat) := fun _ _ h => hc (BitVec.eq_of_toNat_eq h)
  have hall : Mnemonic.all.Nodup := by decide
  rw [List.perm_ext_iff_of_nodup (List.nodup_range.filter _) (hall.map hinj)]
  intro n
  rw [List.mem_filter, resolve_isSome_iff, List.mem_map, List.mem_map, List.mem_range]
  constructor
  · rintro ⟨hn, m, hm, h⟩
    exact ⟨m, hm, by rw [h, BitVec.toNat_ofNat, Nat.mod_eq_of_lt hn]⟩
  · rintro ⟨m, hm, rfl⟩
    exact ⟨(c.opc m).isLt, m, hm, (BitVec.ofNat_toNat 8 (c.opc m)).symm⟩

/-- Every injective opcode map leaves 256 - 13 bytes unknown. -/
theorem length_unknown_opcodes {c : Config} (hc : Function.Injective c.opc) :
    ((List.range 256).filter (fun n => (resolve c (BitVec.ofNat 8 n)).isNone)).length = 243 := by
  have hknown := (known_opcodes_perm hc).length_eq
  have hsplit := List.length_eq_length_filter_add (l := List.range 256)
    (fun n => (resolve c (BitVec.ofNat 8 n)).isSome)
  simp only [Option.not_isSome, List.length_range, List.length_map] at hknown hsplit
  have hall : Mnemonic.all.length = 13 := rfl
  omega

/-- The default opcode bytes (R86), in rising order. -/
theorem default_opcodes_perm : (Mnemonic.all.map defaultConfig.opc).Perm
    [0x01, 0x11, 0x45, 0x46, 0x47, 0x50, 0x54, 0x55, 0x56, 0x82, 0xA0, 0xA2, 0xA7] := by
  decide

/-- Settles O4: a byte is unknown when it is none of the listed opcodes, and the default map is injective. -/
theorem unknownOpcodesAreTheOther243 : Obligations.UnknownOpcodesAreTheOther243 := by
  refine ⟨fun op a b => ?_, length_unknown_opcodes defaultOpc_injective⟩
  rw [decode_eq_unknownOpcode, resolve_eq_none_iff_not_mem, default_opcodes_perm.mem_iff]

/-! ### The opcode table -/

/-- Settles O1: the words of the table are fixed, so each is evaluated. -/
theorem opcodeTableWordsDecode : Obligations.OpcodeTableWordsDecode := by
  unfold Obligations.OpcodeTableWordsDecode
  decide

end Sys2Proof

namespace Sys2Proof.Machine

/-! ### The ends of a step -/

/-- A Running core runs the instruction its three bytes decode to (R100, R105). -/
theorem cycle_of_decode {c : Config} {s : State} {i : Instr} (hr : s.run = .running) (hpc : s.pc ≤ 253)
    (hd : decode c (opcodeAt s) (operandA s) (operandB s) = .ok i) : cycle c s = exec i s := by
  obtain ⟨m, hm, rfl⟩ := decode_eq_ok.mp hd
  obtain ⟨hout, _⟩ | ⟨_, hnone, _⟩ | ⟨_, m', hm', e⟩ := cycle_running c hr
  · omega
  · simp [hm] at hnone
  · obtain rfl : m = m' := by simpa [hm] using hm'
    exact e

/-- A Running core whose opcode byte resolves to no mnemonic takes the unknown-opcode event (R106). -/
theorem cycle_of_unknown {c : Config} {s : State} (hr : s.run = .running) (hpc : s.pc ≤ 253)
    (hop : resolve c (opcodeAt s) = none) : cycle c s = .next (unknownOpcode (opcodeAt s) s) := by
  obtain ⟨hout, _⟩ | ⟨_, _, e⟩ | ⟨_, m, hm, _⟩ := cycle_running c hr
  · omega
  · exact e
  · simp [hop] at hm

/-- At `pc` 254, 255 and 256 a fetch of a Running core reaches address 256 and the step aborts there (R103). -/
theorem cycle_aborts_near_top (c : Config) {s : State} (hr : s.run = .running) (hlo : 254 ≤ s.pc)
    (hhi : s.pc ≤ 256) : Aborts s .memory 256 (cycle c s) := by
  obtain ⟨_, e⟩ | ⟨hin, _⟩ | ⟨hin, _⟩ := cycle_running c hr
  · rw [e, if_pos hhi]
    exact aborts_conclude s .memory 256
  · omega
  · omega

/-- An instruction answers a state, whether it completes or aborts. -/
theorem exec_next (i : Instr) (s : State) : ∃ t, exec i s = .next t := by
  obtain ⟨t, e, _⟩ | ⟨k, v, e, _⟩ := exec_cases i s
  · exact ⟨t, e⟩
  · exact ⟨_, e⟩

/-- Settles O30: the decoded instruction is what a step runs. -/
theorem stepRunsTheDecodedInstruction : Obligations.StepRunsTheDecodedInstruction :=
  ⟨fun _ _ _ hr hpc hd => cycle_of_decode hr hpc hd, fun _ => rfl⟩

/-- Settles O31: the fetch succeeds inside memory and aborts near its top. -/
theorem fetchNearTheTopAborts : Obligations.FetchNearTheTopAborts :=
  fun c _ hr => ⟨fetch_in, cycle_aborts_near_top c hr⟩

/-- Settles O32: an opcode byte of no mnemonic resolves to none, and the fetch abort does not look at it. -/
theorem unknownOpcodeHaltsWithDiagnostic : Obligations.UnknownOpcodeHaltsWithDiagnostic :=
  fun c _ hr hop => ⟨fun hpc => cycle_of_unknown hr hpc (resolve_eq_none.mpr hop), cycle_aborts_near_top c hr⟩

/-- Settles O33: a terminal state is a fixed point of the step. -/
theorem terminalStatesAreFinal : Obligations.TerminalStatesAreFinal := by
  intro s hr
  have hstep : core.step s = .next s := by
    show cycle defaultConfig s = .next s
    exact cycle_terminal defaultConfig hr
  exact ⟨fun c => cycle_terminal c hr, run_fixed core s hstep⟩

/-- Settles O34: a terminal state answers itself, and each end of a step of a Running core is a state. -/
theorem everyStepAnswersAState : Obligations.EveryStepAnswersAState := by
  intro c s
  by_cases hr : s.run = .running
  · obtain ⟨_, e⟩ | ⟨_, _, e⟩ | ⟨_, m, _, e⟩ := cycle_running c hr
    · exact ⟨_, e⟩
    · exact ⟨_, e⟩
    · rw [e]
      exact exec_next _ s
  · exact ⟨s, cycle_terminal c hr⟩

/-! ### A word placed where the next step fetches -/

theorem decodeTableWord_eq_some {nbits w : Nat} {i : Instr} :
    decodeTableWord nbits w = some i ↔
      decode defaultConfig (wordByte (w % 2 ^ nbits) 0) (wordByte (w % 2 ^ nbits) 1) (wordByte (w % 2 ^ nbits) 2) =
        .ok i := by
  rcases decode_cases defaultConfig (wordByte (w % 2 ^ nbits) 0) (wordByte (w % 2 ^ nbits) 1)
    (wordByte (w % 2 ^ nbits) 2) with ⟨m, _, h⟩ | ⟨_, h⟩ <;> simp [decodeTableWord, h]

/-- A state made ready to fetch is Running at a `pc` whose three fetches stay in memory, and keeps its memory. -/
theorem readyToFetch_spec (s : State) :
    (readyToFetch s).run = .running ∧ (readyToFetch s).pc ≤ 253 ∧ (readyToFetch s).mem = s.mem := by
  by_cases hpc : s.pc ≤ 253 <;> cases hr : s.run <;> simp [readyToFetch, hpc, hr]

@[simp] theorem placeAtPc_run (v : Nat) (s : State) : (placeAtPc v s).run = s.run := rfl

@[simp] theorem placeAtPc_pc (v : Nat) (s : State) : (placeAtPc v s).pc = s.pc := rfl

/-- The bytes a step fetches after a placing are the bytes of the number placed: the three writes go to three cells. -/
theorem fetched_placeAtPc {s : State} (hw : Memory.wf s.mem = true) (hpc : s.pc ≤ 253) (v : Nat) :
    opcodeAt (placeAtPc v s) = wordByte v 0 ∧ operandA (placeAtPc v s) = wordByte v 1 ∧
      operandB (placeAtPc v s) = wordByte v 2 := by
  have hw0 := wf_write hw (show s.pc < 256 by omega) (wordByte v 0)
  have hw1 := wf_write hw0 (show s.pc + 1 < 256 by omega) (wordByte v 1)
  have hne2 : s.pc ≠ s.pc + 2 := by omega
  refine ⟨?_, ?_, ?_⟩
  · calc opcodeAt (placeAtPc v s)
      _ = Memory.read (Memory.write s.mem s.pc (wordByte v 0)) s.pc :=
        (read_write_ne hne2 _ _).trans (read_write_ne s.pc.lt_succ_self.ne _ _)
      _ = wordByte v 0 := read_write_same hw _ _
  · exact (read_write_ne (s.pc + 1).lt_succ_self.ne _ _).trans (read_write_same hw0 _ _)
  · exact read_write_same hw1 _ _

/-- Settles O39: the state is ready to fetch, and what it fetches are the bytes of the word. -/
theorem placedWordIsRunNext : Obligations.PlacedWordIsRunNext := by
  intro s nbits w i hw hword
  obtain ⟨hrun, hpc, hmem⟩ := readyToFetch_spec s
  obtain ⟨hop, ha, hb⟩ := fetched_placeAtPc (hmem ▸ hw) hpc (w % 2 ^ nbits)
  refine cycle_of_decode hrun hpc ?_
  rw [State.withFetchWord, hop, ha, hb]
  exact decodeTableWord_eq_some.mp hword

/-! ### The program counter of sequential instructions -/

/-- An instruction that transfers no control advances `pc` by its width (R107); a conditional jump is one when it is not
taken (R108). -/
theorem effect_pc_sequential {i : Instr} {s t : State} (h : Effect i s t)
    (hseq : i.mnemonic ∉ [Mnemonic.call, .ret, .jmp]) (hjeq : i.mnemonic = .jeq → s.flagE ≠ .one)
    (hjne : i.mnemonic = .jne → s.flagE ≠ .zero) : t.pc = s.pc + i.mnemonic.width := by
  cases i with
  | hlt =>
    subst h
    rfl
  | ldi a b | prn a =>
    obtain ⟨_, rfl⟩ := h
    rfl
  | mul a b | add a b | push a | cmp a b =>
    obtain ⟨_, _, rfl⟩ := h
    rfl
  | pop a =>
    obtain ⟨_, _, _, _, rfl⟩ := h
    rfl
  | call a | ret | jmp a => simp [Instr.mnemonic] at hseq
  | jeq a =>
    obtain ⟨taken, _⟩ | ⟨_, rfl⟩ := h
    · exact absurd taken (hjeq rfl)
    · rfl
  | jne a =>
    obtain ⟨taken, _⟩ | ⟨_, rfl⟩ := h
    · exact absurd taken (hjne rfl)
    · rfl

/-- Settles O48: the effect of a completed sequential instruction on `pc`. -/
theorem sequentialInstructionsAdvanceByWidth : Obligations.SequentialInstructionsAdvanceByWidth :=
  fun _ _ _ hseq hjeq hjne h =>
    effect_pc_sequential (effect_of_completes h) (fun hmem => hseq (List.mem_cons_of_mem _ hmem)) hjeq hjne

/-! ### Reachable states -/

/-- Settles O55, by induction on the run: a loaded core meets the invariant and every step keeps it. -/
theorem reachableStatesMeetTheInvariant : Obligations.ReachableStatesMeetTheInvariant := by
  intro c hc s hs
  induction hs with
  | start image fits => exact loadedCoresMeetTheInvariant c image fits hc
  | step _ h ih => exact stepKeepsTheInvariant c _ _ ih h

end Sys2Proof.Machine

namespace Sys2Proof.Machine

/-! ### Which way an instruction ends -/

/-- Where it has no reason to raise, an instruction runs to its last line and has its effect. -/
theorem exec_of_no_trouble {i : Instr} {s : State} (h : ∀ k v, ¬ Trouble i s k v) :
    ∃ t, exec i s = .next t ∧ Effect i s t := by
  obtain completes | ⟨k, v, _, htrouble⟩ := exec_cases i s
  · exact completes
  · exact absurd htrouble (h k v)

/-- Where it cannot have its effect, an instruction aborts at one of its places. -/
theorem aborts_of_no_effect {i : Instr} {s : State} (h : ∀ t, ¬ Effect i s t) :
    ∃ k v, Aborts s k v (exec i s) ∧ Trouble i s k v := by
  obtain ⟨t, _, heffect⟩ | ⟨k, v, e, htrouble⟩ := exec_cases i s
  · exact absurd heffect (h t)
  · exact ⟨k, v, e ▸ aborts_conclude s k v, htrouble⟩

/-! ### HLT, LDI and PRN -/

/-- PRN of an index that names no register aborts with that index (R22, R122). -/
theorem prn_aborts {a : Nat} (ha : 8 ≤ a) (s : State) : Aborts s .register a (exec (.prn a) s) := by
  obtain ⟨_, _, haborts, rfl, rfl, _⟩ := aborts_of_no_effect (i := .prn a) (s := s) fun _ ⟨hlt, _⟩ => by omega
  exact haborts

/-- Settles O13: HLT has no place where it raises, and the frame leaves it only run state and cause to write. -/
theorem hltHaltsAndKeepsTheRest : Obligations.HltHaltsAndKeepsTheRest := by
  intro s
  obtain ⟨t, e, heffect⟩ := exec_of_no_trouble (i := .hlt) (s := s) fun _ _ => id
  obtain ⟨hrun, hcause⟩ := effect_hlt_record heffect rfl
  have frame := effect_frame heffect
  exact ⟨t, e, hrun, hcause, frame.regs (by decide), frame.mem (by decide) (by decide), frame.sp,
    frame.flags (by decide), frame.trace (by decide)⟩

/-- Settles O14: LDI raises only at an index of 8 or more. -/
theorem ldiLoadsTheImmediate : Obligations.LdiLoadsTheImmediate := by
  intro s a b
  obtain ⟨_, e, _, rfl⟩ := exec_of_no_trouble (i := .ldi a b) (s := s) fun _ _ ⟨_, _, h8⟩ => by omega
  exact e

/-- Settles O15: PRN raises exactly at an index of 8 or more. -/
theorem prnEmitsTheRegister : Obligations.PrnEmitsTheRegister := by
  refine ⟨fun _ _ => rfl, fun s a => ?_, fun s _ ha => prn_aborts ha s⟩
  obtain ⟨_, e, _, rfl⟩ := exec_of_no_trouble (i := .prn a) (s := s) fun _ _ ⟨_, _, h8⟩ => by omega
  exact e

/-! ### The frames of single rows -/

/-- `sp` and memory stay where neither PUSH, POP, CALL nor RET ran (R31, R51). -/
theorem EffectFrame.sp_mem_of_not_stack {m : Mnemonic} {s t : State} (h : EffectFrame m s t)
    (hm : m ∉ [Mnemonic.push, .pop, .call, .ret]) : t.sp = s.sp ∧ SameMemory s t := by
  have hsp : spAfter m s = s.sp := by cases m <;> simp [spAfter] at hm ⊢
  have hmem : t.mem = s.mem := h.mem (by rintro rfl; simp at hm) (by rintro rfl; simp at hm)
  exact ⟨h.sp.trans hsp, fun _ => by rw [hmem]⟩

/-- LDI, MUL and ADD write the register their first operand names, and no other (R121, R131, R132). -/
theorem effect_regs_set {i : Instr} {a b : Nat} {imm : Byte} {s t : State}
    (hi : i = .ldi a imm ∨ i = .mul a b ∨ i = .add a b) (h : Effect i s t) :
    ∃ (ha : a < 8) (v : Byte), t.regs = s.regs.set a v := by
  obtain rfl | rfl | rfl := hi
  · obtain ⟨ha, rfl⟩ := h
    exact ⟨ha, _, rfl⟩
  · obtain ⟨ha, _, rfl⟩ := h
    exact ⟨ha, _, rfl⟩
  · obtain ⟨ha, _, rfl⟩ := h
    exact ⟨ha, _, rfl⟩

/-- Settles O40: one register is set, and the frame of the three mnemonics keeps the rest. -/
theorem registerWritersFrame : Obligations.RegisterWritersFrame := by
  intro i a b imm s t hi h
  have frame := frame_of_completes h
  have hm : i.mnemonic ∈ [Mnemonic.ldi, .mul, .add] := by
    obtain rfl | rfl | rfl := hi <;> simp [Instr.mnemonic]
  obtain ⟨ha, v, hset⟩ := effect_regs_set hi (effect_of_completes h)
  have hregs (j : Fin 8) (hj : j.val ≠ a) : t.regs[j] = s.regs[j] := by
    rw [hset]
    exact Vector.getElem_set_ne ha j.isLt hj.symm
  have not_stack := (by decide : ∀ m ∈ [Mnemonic.ldi, .mul, .add], m ∉ [Mnemonic.push, .pop, .call, .ret])
  obtain ⟨hsp, hmem⟩ := frame.sp_mem_of_not_stack (not_stack _ hm)
  obtain ⟨hrun, hcause⟩ := frame.runAndCause (ne_of_mem_of_not_mem hm (by decide))
  have hflags := frame.flags (ne_of_mem_of_not_mem hm (by decide))
  have htrace := frame.trace (ne_of_mem_of_not_mem hm (by decide))
  exact ⟨hregs, hmem, hsp, hflags, hrun, hcause, htrace⟩

/-- Settles O43: the frame of the five mnemonics, of which CMP alone may write flags and PRN alone the trace. -/
theorem nonStoringFrame : Obligations.NonStoringFrame := by
  intro i a b s t hi h
  have frame := frame_of_completes h
  have hm : i.mnemonic ∈ [Mnemonic.prn, .cmp, .jmp, .jeq, .jne] := by
    obtain rfl | rfl | rfl | rfl | rfl := hi <;> simp [Instr.mnemonic]
  have not_writer := (by decide : ∀ m ∈ [Mnemonic.prn, .cmp, .jmp, .jeq, .jne], m ∉ [Mnemonic.ldi, .mul, .add, .pop])
  have hregs := frame.regs (not_writer _ hm)
  have not_stack := (by decide : ∀ m ∈ [Mnemonic.prn, .cmp, .jmp, .jeq, .jne], m ∉ [Mnemonic.push, .pop, .call, .ret])
  obtain ⟨hsp, hmem⟩ := frame.sp_mem_of_not_stack (not_stack _ hm)
  obtain ⟨hrun, hcause⟩ := frame.runAndCause (ne_of_mem_of_not_mem hm (by decide))
  have only_cmp : i.mnemonic = .cmp → i = .cmp a b := by
    obtain rfl | rfl | rfl | rfl | rfl := hi <;> simp [Instr.mnemonic]
  have only_prn : i.mnemonic = .prn → i = .prn a := by
    obtain rfl | rfl | rfl | rfl | rfl := hi <;> simp [Instr.mnemonic]
  exact ⟨fun _ => by rw [hregs], hmem, hsp, hrun, hcause, fun hne => frame.flags (mt only_cmp hne),
    fun hne => frame.trace (mt only_prn hne)⟩

end Sys2Proof.Machine

namespace Sys2Proof.Machine

/-! ### MUL and ADD -/

/-- An instruction that reads two registers aborts at a bad index, and names the second only where the first is good
(R110, D9). -/
theorem aborts_of_bad_index {i : Instr} {a b : Nat} (hi : i = .mul a b ∨ i = .add a b ∨ i = .cmp a b) (s : State)
    (hbad : 8 ≤ a ∨ 8 ≤ b) :
    ∃ v : Int, Aborts s .register v (exec i s) ∧ ((v = a ∧ 8 ≤ a) ∨ (v = b ∧ 8 ≤ b ∧ a < 8)) := by
  have no_effect (t : State) : ¬ Effect i s t := by
    obtain rfl | rfl | rfl := hi <;> exact fun ⟨_, _, _⟩ => by omega
  obtain ⟨k, v, haborts, htrouble⟩ := aborts_of_no_effect no_effect
  have place : k = .register ∧ ((v = a ∧ 8 ≤ a) ∨ (v = b ∧ 8 ≤ b ∧ a < 8)) := by
    obtain rfl | rfl | rfl := hi <;> exact htrouble
  obtain ⟨rfl, hv⟩ := place
  exact ⟨v, haborts, hv⟩

/-- The first index is recorded where it is bad, whatever the second is. -/
theorem aborts_at_first_index {i : Instr} {a b : Nat} (hi : i = .mul a b ∨ i = .add a b ∨ i = .cmp a b) (s : State)
    (ha : 8 ≤ a) : Aborts s .register a (exec i s) := by
  obtain ⟨_, haborts, ⟨rfl, _⟩ | ⟨_, _, ha'⟩⟩ := aborts_of_bad_index hi s (.inl ha)
  · exact haborts
  · omega

/-- The second index is recorded where it alone is bad. -/
theorem aborts_at_second_index {i : Instr} {a b : Nat} (hi : i = .mul a b ∨ i = .add a b ∨ i = .cmp a b) (s : State)
    (ha : a < 8) (hb : 8 ≤ b) : Aborts s .register b (exec i s) := by
  obtain ⟨_, haborts, ⟨_, ha'⟩ | ⟨rfl, _⟩⟩ := aborts_of_bad_index hi s (.inr hb)
  · omega
  · exact haborts

/-- Settles O16: MUL raises only at an index of 8 or more, and the write keeps the product's residue. -/
theorem mulKeepsTheLowByte : Obligations.MulKeepsTheLowByte := by
  intro s a b
  obtain ⟨_, e, _, _, rfl⟩ := exec_of_no_trouble (i := .mul a b) (s := s) fun _ _ ⟨_, bad⟩ => by omega
  exact ⟨_, BitVec.toNat_ofNat _ 8, e⟩

/-- Settles O17: ADD raises exactly at an index of 8 or more, and the write keeps the sum's residue. -/
theorem addWrapsAndFaultsInOrder : Obligations.AddWrapsAndFaultsInOrder := by
  have is_add (a b : Nat) : Instr.add a b = .mul a b ∨ Instr.add a b = .add a b ∨ Instr.add a b = .cmp a b :=
    .inr (.inl rfl)
  refine ⟨fun _ _ _ => rfl, fun s a b => ?_, fun s a b => aborts_at_first_index (is_add a b) s,
    fun s a b => aborts_at_second_index (is_add a b) s⟩
  obtain ⟨_, e, _, _, rfl⟩ := exec_of_no_trouble (i := .add a b) (s := s) fun _ _ ⟨_, bad⟩ => by omega
  exact ⟨_, BitVec.toNat_ofNat _ 8, e⟩

/-- The ALU has no operation but ADD (R130). -/
@[simp] theorem aluApply_other (tag a b : Nat) (s : State) :
    aluApply (.other tag) a b s = .error (.unsupportedOperation tag) := rfl

/-- Settles O26: the ALU raises, and a rule that ends in this event ends in the fault (R185). -/
theorem aluRefusesOtherOperations : Obligations.AluRefusesOtherOperations := by
  intro s tag a b
  have raises := aluApply_other tag a b s
  exact ⟨raises, by rw [raises, conclude_unsupported]⟩

end Sys2Proof.Machine

namespace Sys2Proof.Machine

/-! ### PUSH and POP: result and completion -/

/-- An operand byte that names register `i` is its index as a number (R84). -/
theorem operandA_toNat {s : State} {i : Fin 8} (h : operandA s = BitVec.ofNat 8 i) : (operandA s).toNat = i := by
  rw [h, BitVec.toNat_ofNat]
  omega

/-- Settles O18: with its operand byte in memory and naming a register, PUSH has no place where it raises. -/
theorem pushStoresTheRegister : Obligations.PushStoresTheRegister := by
  intro s passed i hpc hi
  have hidx := operandA_toNat hi
  have no_trouble (k : AccessKind) (v : Int) : ¬ Trouble (.push passed) s k v := by
    rintro (⟨_, hout, _⟩ | ⟨_, _, h8, _⟩) <;> omega
  obtain ⟨_, e, _, _, rfl⟩ := exec_of_no_trouble no_trouble
  simp only [hidx] at e
  exact e

/-- Settles O19: with its operand byte and the cell at `sp` in memory, POP has no place where it raises. -/
theorem popLoadsTheRegister : Obligations.PopLoadsTheRegister := by
  intro s passed i hpc hi h0 h255
  have hidx := operandA_toNat hi
  have no_trouble (k : AccessKind) (v : Int) : ¬ Trouble (.pop passed) s k v := by
    rintro (⟨_, hout, _⟩ | ⟨_, _, hout, _⟩ | ⟨_, _, h8, _⟩) <;> omega
  obtain ⟨_, e, _, _, _, _, rfl⟩ := exec_of_no_trouble no_trouble
  simp only [hidx] at e
  exact e

/-- For an injective `OPC`, a Running core that fetched the opcode of a mnemonic runs it with the two operand bytes it
fetched (R100, R104). -/
theorem cycle_of_opcode {c : Config} {s : State} {m : Mnemonic} (hc : Function.Injective c.opc) (hr : s.run = .running)
    (hpc : s.pc ≤ 253) (hop : opcodeAt s = c.opc m) :
    cycle c s = exec (m.withOperands (operandA s) (operandB s)) s :=
  cycle_of_decode hr hpc (decode_eq_ok.mpr ⟨m, hop ▸ resolve_opc hc m, rfl⟩)

/-- Settles O37: the step is PUSH or POP of the operand it fetched, and both take the register the byte at `pc + 1`
names whatever they were passed. -/
theorem rereadGivesTheFetchedOperand : Obligations.RereadGivesTheFetchedOperand := by
  intro c s i hc hr hpc hi hw
  constructor
  · intro hop
    have hstep := cycle_of_opcode hc hr hpc hop
    have hpush := pushStoresTheRegister s (operandA s).toNat i (by omega) hi
    exact ⟨_, hstep.trans hpush, read_write_same hw _ _, rfl, rfl⟩
  · intro hop h0 h255
    have hstep := cycle_of_opcode hc hr hpc hop
    have hpop := popLoadsTheRegister s (operandA s).toNat i (by omega) hi h0 h255
    exact ⟨_, hstep.trans hpop, Vector.getElem_set_self i.isLt, rfl, rfl⟩

/-- Settles O50: the push leaves the operand byte of the pop and puts the register where the pop reads it, so the pop
sets the register to the value it has. -/
theorem pushPopRoundTrip : Obligations.PushPopRoundTrip := by
  intro s r hw hpc h0 h256 hi hi' hne
  have hpush := pushStoresTheRegister s r r (by omega) hi
  have hcell : s.pc + 3 ≠ ((s.sp - 1) % 256).toNat := by
    unfold pushSp at hne
    omega
  obtain ⟨hlow, hhigh⟩ := pushSp_range s
  refine ⟨_, _, hpush, popLoadsTheRegister _ r r hpc ?operand hlow (Int.le_of_lt_add_one hhigh), ?regs, ?sp, ?sp256⟩
  case operand => exact (read_write_ne hcell _ _).trans hi'
  case regs =>
    show s.regs.set r (Memory.read (Memory.write s.mem _ s.regs[r]) _) = s.regs
    rw [read_write_same hw]
    exact Vector.set_getElem_self r.isLt
  case sp | sp256 =>
    intro _
    show ((s.sp - 1) % 256 + 1) % 256 = _
    omega

/-! ### The frames of the stack instructions -/

/-- PUSH, POP, CALL and RET write no flag and nothing of the record (R33, R34 to R36). -/
theorem EffectFrame.flags_record_of_stack {m : Mnemonic} {s t : State} (h : EffectFrame m s t)
    (hm : m ∈ [Mnemonic.push, .pop, .call, .ret]) : SameFlags s t ∧ SameRecord s t := by
  obtain ⟨hrun, hcause⟩ := h.runAndCause (ne_of_mem_of_not_mem hm (by decide))
  exact ⟨h.flags (ne_of_mem_of_not_mem hm (by decide)), hrun, hcause, h.trace (ne_of_mem_of_not_mem hm (by decide))⟩

/-- PUSH and CALL store one byte, at the new `sp`, which is an address in memory (R141, R150). -/
theorem effect_store {i : Instr} {a : Nat} {s t : State} (hi : i = .push a ∨ i = .call a) (h : Effect i s t) :
    0 ≤ t.sp ∧ t.sp < 256 ∧ ∃ v, t.mem = Memory.write s.mem t.sp.toNat v := by
  obtain rfl | rfl := hi
  · obtain ⟨_, _, rfl⟩ := h
    obtain ⟨h0, h1⟩ := pushSp_range s
    exact ⟨h0, h1, _, rfl⟩
  · obtain ⟨_, h0, h1, rfl⟩ := h
    exact ⟨h0, h1, _, rfl⟩

/-- What PUSH and CALL have in common: they write the cell at the new `sp`, and no register, flag or record. -/
theorem stackWriter_frame {i : Instr} {a : Nat} {s t : State} (hi : i = .push a ∨ i = .call a)
    (h : CompletesWith t (exec i s)) :
    (∀ k : Nat, (k : Int) ≠ t.sp → Memory.read t.mem k = Memory.read s.mem k) ∧ 0 ≤ t.sp ∧ t.sp < 256 ∧
      SameRegs s t ∧ SameFlags s t ∧ SameRecord s t := by
  have frame := frame_of_completes h
  obtain ⟨h0, h1, v, hmem⟩ := effect_store hi (effect_of_completes h)
  have hregs : t.regs = s.regs := frame.regs (by obtain rfl | rfl := hi <;> simp [Instr.mnemonic])
  refine ⟨fun k hk => ?_, h0, h1, fun _ => by rw [hregs], frame.flags_record_of_stack ?_⟩
  · rw [hmem]
    exact read_write_ne (by omega) v s.mem
  · obtain rfl | rfl := hi <;> simp [Instr.mnemonic]

/-- Settles O41: the common frame of the two, with the new `sp` of each and the byte each stores. -/
theorem stackWritersFrame : Obligations.StackWritersFrame := by
  intro passed s t
  constructor
  · rintro h addr rfl
    have hsp : t.sp = pushSp s := (frame_of_completes h).sp
    obtain ⟨hmem, h0, h1, hrest⟩ := stackWriter_frame (.inl rfl) h
    rw [hsp] at hmem h0 h1
    exact ⟨hmem, h0, h1, fun hw _ => read_effect_push (effect_of_completes h) hw, hsp, hrest⟩
  · rintro h addr rfl
    have hsp : t.sp = callSp s := (frame_of_completes h).sp
    obtain ⟨hmem, h0, h1, hrest⟩ := stackWriter_frame (.inr rfl) h
    rw [hsp] at hmem h0 h1
    exact ⟨hmem, h0, h1, read_effect_call (effect_of_completes h), hsp, hrest⟩

/-- POP writes the register its operand byte names, and no other (R142). -/
theorem effect_pop_regs {passed : Nat} {s t : State} (h : Effect (.pop passed) s t) (j : Fin 8)
    (hj : j.val ≠ (operandA s).toNat) : t.regs[j] = s.regs[j] := by
  obtain ⟨hi, _, _, _, rfl⟩ := h
  exact Vector.getElem_set_ne hi j.isLt hj.symm

/-- Settles O42: the frames of the two mnemonics, and the one register POP writes. -/
theorem stackReadersFrame : Obligations.StackReadersFrame := by
  intro passed s t
  constructor
  · intro h
    have frame : EffectFrame .pop s t := frame_of_completes h
    have hmem : SameMemory s t := fun _ => by rw [frame.mem (by decide) (by decide)]
    exact ⟨effect_pop_regs (effect_of_completes h), frame.sp, hmem, frame.flags_record_of_stack (by decide)⟩
  · intro h
    have frame : EffectFrame .ret s t := frame_of_completes h
    have hmem : SameMemory s t := fun _ => by rw [frame.mem (by decide) (by decide)]
    have hregs : SameRegs s t := fun _ => by rw [frame.regs (by decide)]
    exact ⟨hregs, frame.sp, hmem, frame.flags_record_of_stack (by decide)⟩

end Sys2Proof.Machine

namespace Sys2Proof.Machine

/-! ### CALL and RET -/

/-- With its target in a register, CALL has its effect at every `sp` from 1 to 256 (R150). -/
theorem call_has_effect (s : State) (a : Fin 8) (h1 : 1 ≤ s.sp) (h256 : s.sp ≤ 256) :
    ∃ t, exec (.call a) s = .next t ∧ Effect (.call a) s t :=
  exec_of_no_trouble fun _ _ htrouble => by
    obtain ⟨_, _, hout⟩ | ⟨_, _, h8, _⟩ := htrouble
    · unfold callSp at hout
      omega
    · omega

/-- Where a CALL can be fetched, the byte it stores is `pc + 2` itself (R53, R103). -/
theorem returnAddress_toNat {s : State} (hpc : s.pc ≤ 253) : (returnAddress s).toNat = s.pc + 2 :=
  (BitVec.toNat_ofNat _ 8).trans (Nat.mod_eq_of_lt (by omega))

/-- With the cell at `sp` in memory, RET transfers to the byte there and leaves `sp + 1` unreduced (R151). -/
theorem exec_ret {s : State} (h0 : 0 ≤ s.sp) (h255 : s.sp ≤ 255) :
    exec .ret s = .next { s with pc := (Memory.read s.mem s.sp.toNat).toNat, sp := s.sp + 1 } := by
  have no_trouble (k : AccessKind) (v : Int) : ¬ Trouble .ret s k v := fun ⟨_, _, hout⟩ => by omega
  obtain ⟨_, e, _, _, rfl⟩ := exec_of_no_trouble no_trouble
  exact e

/-- Settles O20: in this range of `sp` CALL has its effect, and the byte it stores is the return address. -/
theorem callPushesTheReturnAddress : Obligations.CallPushesTheReturnAddress := by
  intro s a h1 h256
  obtain ⟨_, e, _, _, _, rfl⟩ := call_has_effect s a h1 h256
  exact ⟨returnAddress s, returnAddress_toNat, e⟩

/-- Settles O21: RET raises exactly where `sp` is outside memory, and then with `sp` itself. -/
theorem retTakesTheByteAtSp : Obligations.RetTakesTheByteAtSp := by
  refine ⟨fun _ => rfl, fun _ => exec_ret, fun s hsp => ?_⟩
  have no_effect (t : State) : ¬ Effect .ret s t := fun ⟨_, hlt, _⟩ => by omega
  obtain ⟨_, _, haborts, rfl, rfl, _⟩ := aborts_of_no_effect no_effect
  exact hsp ▸ haborts

/-- Settles O51: the later RET reads the return address from the cell the CALL stored it in, and its increment undoes
the CALL's decrement, since neither is reduced. -/
theorem callRetRoundTrip : Obligations.CallRetRoundTrip := by
  intro s a hw hpc h1 h256
  obtain ⟨t, e, heffect⟩ := call_has_effect s a h1 h256
  have ht : t.sp = s.sp - 1 := (effect_frame heffect).sp
  have hcell : Memory.read t.mem t.sp.toNat = returnAddress s := ht ▸ read_effect_call heffect hw
  refine ⟨t, e, fun u hu hmem => ⟨_, exec_ret (by omega) (by omega), ?pc, ?sp⟩⟩
  case pc => exact (congrArg BitVec.toNat (hmem.trans hcell)).trans (returnAddress_toNat hpc)
  case sp =>
    show u.sp + 1 = s.sp
    omega

end Sys2Proof.Machine

namespace Sys2Proof.Machine

/-! ### An effect decides the outcome -/

/-- An instruction has one effect at a state. -/
theorem Effect.unique {i : Instr} {s t u : State} (ht : Effect i s t) (hu : Effect i s u) : t = u := by
  cases i with
  | hlt => exact ht.trans hu.symm
  | ldi a b | prn a | jmp a =>
    obtain ⟨_, rfl⟩ := ht
    obtain ⟨_, rfl⟩ := hu
    rfl
  | mul a b | add a b | push a | ret | cmp a b =>
    obtain ⟨_, _, rfl⟩ := ht
    obtain ⟨_, _, rfl⟩ := hu
    rfl
  | call a =>
    obtain ⟨_, _, _, rfl⟩ := ht
    obtain ⟨_, _, _, rfl⟩ := hu
    rfl
  | pop a =>
    obtain ⟨_, _, _, _, rfl⟩ := ht
    obtain ⟨_, _, _, _, rfl⟩ := hu
    rfl
  | jeq a | jne a =>
    obtain ⟨taken, _, rfl⟩ | ⟨untaken, rfl⟩ := ht <;> obtain ⟨taken', _, rfl⟩ | ⟨untaken', rfl⟩ := hu
    · rfl
    · exact absurd taken untaken'
    · exact absurd taken' untaken
    · rfl

/-- Where an instruction has its effect it has no reason to raise: what it needed for the one excludes the other. -/
theorem Effect.no_trouble {i : Instr} {s t : State} (h : Effect i s t) (k : AccessKind) (v : Int) :
    ¬ Trouble i s k v := by
  intro htrouble
  cases i with
  | hlt => exact htrouble
  | ldi a b | prn a | jmp a =>
    obtain ⟨ha, _⟩ := h
    obtain ⟨_, _, h8⟩ := htrouble
    omega
  | mul a b | add a b | cmp a b =>
    obtain ⟨ha, hb, _⟩ := h
    obtain ⟨_, hbad⟩ := htrouble
    omega
  | push a =>
    obtain ⟨hi, hpc, _⟩ := h
    obtain ⟨_, hout, _⟩ | ⟨_, _, h8, _⟩ := htrouble <;> omega
  | pop a =>
    obtain ⟨hi, hpc, h0, h1, _⟩ := h
    obtain ⟨_, hout, _⟩ | ⟨_, _, hout, _⟩ | ⟨_, _, h8, _⟩ := htrouble <;> omega
  | call a =>
    obtain ⟨ha, h0, h1, _⟩ := h
    obtain ⟨_, _, hout⟩ | ⟨_, _, h8, _⟩ := htrouble <;> omega
  | ret =>
    obtain ⟨h0, h1, _⟩ := h
    obtain ⟨_, _, hout⟩ := htrouble
    exact hout ⟨h0, h1⟩
  | jeq a | jne a =>
    obtain ⟨_, _, h8, taken⟩ := htrouble
    obtain ⟨_, ha, _⟩ | ⟨untaken, _⟩ := h
    · omega
    · exact untaken taken

/-- An instruction that has its effect answers it. -/
theorem exec_of_effect {i : Instr} {s t : State} (h : Effect i s t) : exec i s = .next t := by
  obtain ⟨u, e, hu⟩ := exec_of_no_trouble h.no_trouble
  exact h.unique hu ▸ e

/-! ### The comparator and CMP -/

/-- The flag of a relation, by cases on the relation (R160). -/
theorem flagOf_decide (p : Prop) [Decidable p] : flagOf (decide p) = if p then .one else .zero := by
  by_cases hp : p <;> simp [flagOf, hp]

/-- A flag is 1 exactly when its relation holds (R160). -/
theorem flagOf_decide_eq_one {p : Prop} [Decidable p] : flagOf (decide p) = .one ↔ p := by
  by_cases hp : p <;> simp [flagOf, hp]

/-- No flag that was written is unset (R160). -/
theorem flagOf_ne_unset (holds : Bool) : flagOf holds ≠ .unset := by
  cases holds <;> decide

/-- Legal flags of which E is set are one-hot (R33). -/
theorem State.one_hot_of_flagsLegal {s : State} (h : s.flagsLegal = true) (hset : s.flagE ≠ .unset) :
    (s.flagE = .one ∧ s.flagL = .zero ∧ s.flagG = .zero) ∨ (s.flagE = .zero ∧ s.flagL = .one ∧ s.flagG = .zero) ∨
      (s.flagE = .zero ∧ s.flagL = .zero ∧ s.flagG = .one) := by
  unfold State.flagsLegal at h
  split at h
  next hE _ _ => exact absurd hE hset
  next hE hL hG => exact .inl ⟨hE, hL, hG⟩
  next hE hL hG => exact .inr (.inl ⟨hE, hL, hG⟩)
  next hE hL hG => exact .inr (.inr ⟨hE, hL, hG⟩)
  next => exact absurd h (by decide)

/-- Settles O25: each flag is the flag of its relation, and the comparator leaves legal flags that are all set. -/
theorem compareSetsExactlyOneFlag : Obligations.CompareSetsExactlyOneFlag := by
  intro va vb s
  have hE : (compareFlags va vb s).flagE ≠ .unset := flagOf_ne_unset _
  exact ⟨flagOf_decide_eq_one.trans BitVec.toNat_inj, flagOf_decide_eq_one, flagOf_decide_eq_one, hE,
    flagOf_ne_unset _, flagOf_ne_unset _, State.one_hot_of_flagsLegal (flagsLegal_compareFlags va vb s) hE, rfl⟩

/-- Settles O22: with both operands in range CMP has its effect, the comparator's flags. -/
theorem cmpComparesUnsigned : Obligations.CmpComparesUnsigned :=
  fun _ a b => ⟨_, _, _, exec_of_effect ⟨a.isLt, b.isLt, rfl⟩, flagOf_decide _, flagOf_decide _, flagOf_decide _⟩

/-! ### The jumps -/

/-- Settles O23: with its operand in range JMP has its effect. -/
theorem jmpTransfersToTheRegister : Obligations.JmpTransfersToTheRegister :=
  fun _ a => exec_of_effect ⟨a.isLt, rfl⟩

/-- JEQ is taken where E is 1 (R163). -/
theorem exec_jeq_taken {s : State} (hE : s.flagE = .one) (a : Fin 8) :
    exec (.jeq a) s = .next { s with pc := s.regs[a].toNat } :=
  exec_of_effect (.inl ⟨hE, a.isLt, rfl⟩)

/-- JEQ is not taken where E is not 1, and then reads no register (R163, D14). -/
theorem exec_jeq_untaken {s : State} (hE : s.flagE ≠ .one) (a : Nat) :
    exec (.jeq a) s = .next { s with pc := s.pc + 2 } :=
  exec_of_effect (.inr ⟨hE, rfl⟩)

/-- JNE is taken where E is 0 (R164). -/
theorem exec_jne_taken {s : State} (hE : s.flagE = .zero) (a : Fin 8) :
    exec (.jne a) s = .next { s with pc := s.regs[a].toNat } :=
  exec_of_effect (.inl ⟨hE, a.isLt, rfl⟩)

/-- JNE is not taken where E is not 0, and then reads no register (R164, D14). -/
theorem exec_jne_untaken {s : State} (hE : s.flagE ≠ .zero) (a : Nat) :
    exec (.jne a) s = .next { s with pc := s.pc + 2 } :=
  exec_of_effect (.inr ⟨hE, rfl⟩)

/-- Settles O24: each entry of the table is one of the four rules of the two jumps. -/
theorem conditionalJumpTable : Obligations.ConditionalJumpTable := by
  intro s
  refine ⟨fun hE a => ?unset, fun hE => ?zero, fun hE => ?one⟩
  case unset => exact ⟨exec_jeq_untaken (by simp [hE]) a, exec_jne_untaken (by simp [hE]) a⟩
  case zero => exact ⟨exec_jeq_untaken (by simp [hE]), exec_jne_taken hE⟩
  case one => exact ⟨exec_jeq_taken hE, exec_jne_untaken (by simp [hE])⟩

/-! ### L and G are not read -/

/-- CMP overwrites L and G, so its effect is the same whatever they were (R161). -/
theorem effect_cmp_overwrites_less_greater {a b : Nat} {s t : State} (h : Effect (.cmp a b) s t) (l g : Flag) :
    Effect (.cmp a b) { s with flagL := l, flagG := g } t := h

/-- Any other instruction has the same effect whatever L and G are, and leaves them as they were (R33, R165). -/
theorem effect_carries_less_greater {i : Instr} {s t : State} (hi : i.mnemonic ≠ .cmp) (h : Effect i s t) (l g : Flag) :
    Effect i { s with flagL := l, flagG := g } { t with flagL := l, flagG := g } := by
  cases i with
  | hlt =>
    subst h
    rfl
  | ldi a b | prn a | jmp a =>
    obtain ⟨ha, rfl⟩ := h
    exact ⟨ha, rfl⟩
  | mul a b | add a b | push a | ret =>
    obtain ⟨h1, h2, rfl⟩ := h
    exact ⟨h1, h2, rfl⟩
  | call a =>
    obtain ⟨ha, h0, h1, rfl⟩ := h
    exact ⟨ha, h0, h1, rfl⟩
  | pop a =>
    obtain ⟨hi, hpc, h0, h1, rfl⟩ := h
    exact ⟨hi, hpc, h0, h1, rfl⟩
  | cmp a b => exact absurd rfl hi
  | jeq a | jne a =>
    obtain ⟨taken, ha, rfl⟩ | ⟨untaken, rfl⟩ := h
    · exact .inl ⟨taken, ha, rfl⟩
    · exact .inr ⟨untaken, rfl⟩

/-- Settles O49: the effect at the other state is the one named, CMP apart, and an effect decides the outcome. -/
theorem lessAndGreaterAreNeverRead : Obligations.LessAndGreaterAreNeverRead := by
  intro i s t l g h
  have heffect := effect_of_completes h
  apply exec_of_effect
  split
  next hcmp =>
    cases i <;> cases hcmp
    exact effect_cmp_overwrites_less_greater heffect l g
  next hi => exact effect_carries_less_greater hi heffect l g

end Sys2Proof.Machine

namespace Sys2Proof.Machine

/-! ### A place that raises decides the outcome -/

/-- An instruction raises at one place of a state only: the fault order leaves no second event (R110, R188, D9). -/
theorem Trouble.unique {i : Instr} {s : State} {k k' : AccessKind} {v v' : Int} (h : Trouble i s k v)
    (h' : Trouble i s k' v') : k = k' ∧ v = v' := by
  cases i with
  | hlt => exact h.elim
  | ldi a b | prn a | jmp a | ret | jeq a | jne a =>
    obtain ⟨rfl, rfl, _⟩ := h
    obtain ⟨rfl, rfl, _⟩ := h'
    exact ⟨rfl, rfl⟩
  | mul a b | add a b | cmp a b =>
    obtain ⟨rfl, hv⟩ := h
    obtain ⟨rfl, hv'⟩ := h'
    exact ⟨rfl, by omega⟩
  | push a | call a =>
    obtain ⟨rfl, hmem⟩ | ⟨rfl, hreg⟩ := h <;> obtain ⟨rfl, hmem'⟩ | ⟨rfl, hreg'⟩ := h'
    · exact ⟨rfl, by omega⟩
    · omega
    · omega
    · exact ⟨rfl, by omega⟩
  | pop a =>
    obtain ⟨rfl, hpc⟩ | ⟨rfl, hsp⟩ | ⟨rfl, hreg⟩ := h
    · obtain ⟨rfl, hpc'⟩ | ⟨_, hsp'⟩ | ⟨_, hreg'⟩ := h'
      · exact ⟨rfl, by omega⟩
      · omega
      · omega
    · obtain ⟨_, hpc'⟩ | ⟨rfl, hsp'⟩ | ⟨_, hreg'⟩ := h'
      · omega
      · exact ⟨rfl, by omega⟩
      · omega
    · obtain ⟨_, hpc'⟩ | ⟨_, hsp'⟩ | ⟨rfl, hreg'⟩ := h'
      · omega
      · omega
      · exact ⟨rfl, by omega⟩

/-- An instruction that has a reason to raise aborts with it. -/
theorem aborts_of_trouble {i : Instr} {s : State} {k : AccessKind} {v : Int} (h : Trouble i s k v) :
    Aborts s k v (exec i s) := by
  obtain ⟨_, _, heffect⟩ | ⟨_, _, e, htrouble⟩ := exec_cases i s
  · exact absurd h (heffect.no_trouble k v)
  · obtain ⟨rfl, rfl⟩ := h.unique htrouble
    exact e ▸ aborts_conclude s k v

/-- Settles O27: each clause is a register row of `Trouble`; the range of `sp` and E is what the row needs beside the
bad index. -/
theorem badRegisterIndexAborts : Obligations.BadRegisterIndexAborts := by
  refine ⟨fun s a b ha => ?ldi, fun s a ha => ?prn_jmp, fun s a b ha => ?first, fun s a b ha hb => ?second,
    fun s passed hpc hi => ?push, fun s passed hpc h0 h255 hi => ?pop, fun s a h1 h256 ha => ?call,
    fun s a hE ha => ?jeq, fun s a hE ha => ?jne⟩
  case ldi => exact aborts_of_trouble ⟨rfl, rfl, ha⟩
  case prn_jmp => exact ⟨prn_aborts ha s, aborts_of_trouble ⟨rfl, rfl, ha⟩⟩
  case first =>
    exact ⟨aborts_at_first_index (.inl rfl) s ha, aborts_at_first_index (.inr (.inl rfl)) s ha,
      aborts_at_first_index (.inr (.inr rfl)) s ha⟩
  case second =>
    exact ⟨aborts_at_second_index (.inl rfl) s ha hb, aborts_at_second_index (.inr (.inl rfl)) s ha hb,
      aborts_at_second_index (.inr (.inr rfl)) s ha hb⟩
  case push => exact aborts_of_trouble (.inr ⟨rfl, rfl, hi, hpc⟩)
  case pop => exact aborts_of_trouble (.inr (.inr ⟨rfl, rfl, hi, h0, Int.lt_add_one_of_le h255, hpc⟩))
  case call =>
    have hin : 0 ≤ callSp s ∧ callSp s < 256 := by
      unfold callSp
      omega
    exact aborts_of_trouble (.inr ⟨rfl, rfl, ha, hin⟩)
  case jeq | jne => exact aborts_of_trouble ⟨rfl, rfl, ha, hE⟩

/-- Settles O28: each clause is a stack row of `Trouble`, which asks nothing of the register index. -/
theorem stackAccessOutsideMemoryAborts : Obligations.StackAccessOutsideMemoryAborts := by
  refine ⟨fun s passed hpc hsp => ?pop, fun s hsp => ?ret, fun s a hsp => ?call⟩
  case pop => exact aborts_of_trouble (.inr (.inl ⟨rfl, rfl, by omega, hpc⟩))
  case ret => exact aborts_of_trouble ⟨rfl, rfl, by omega⟩
  case call =>
    have hout : ¬ (0 ≤ callSp s ∧ callSp s < 256) := by
      unfold callSp
      omega
    exact aborts_of_trouble (.inl ⟨rfl, rfl, hout⟩)

end Sys2Proof.Machine

namespace Sys2Proof.Machine

/-! ### The load -/

/-- Inside the image a loaded cell holds the image's byte (R212). -/
theorem read_load_of_lt (image : List Byte) (fits : image.length ≤ 256) (s : State) {k : Nat} (hk : k < image.length) :
    Memory.read (State.load image fits s).mem k = image[k] := by
  rw [load_mem, read_ofBytes _ (by omega)]
  exact List.getD_eq_getElem image unlistedByte hk

/-- Beyond the image a loaded cell holds 0, the cells of memory and the addresses above it alike (R212). -/
theorem read_load_of_ge (image : List Byte) (fits : image.length ≤ 256) (s : State) {k : Nat} (hk : image.length ≤ k) :
    Memory.read (State.load image fits s).mem k = 0 := by
  rw [load_mem]
  obtain hin | hout := Nat.lt_or_ge k 256
  · rw [read_ofBytes _ hin]
    exact List.getD_eq_default image unlistedByte hk
  · exact read_above (wf_ofBytes _) hout

/-- A load leaves memory canonical, whatever it was before (R212). -/
theorem wf_load (image : List Byte) (fits : image.length ≤ 256) (s : State) :
    Memory.wf (State.load image fits s).mem = true := by
  rw [load_mem]
  exact wf_ofBytes _

/-- Settles O12: the cells on the two sides of the image's end; a load writes memory only, in canonical form. -/
theorem loadPlacesTheImage : Obligations.LoadPlacesTheImage :=
  fun _ image fits =>
    ⟨fun _ => read_load_of_lt image fits _, fun _ => read_load_of_ge image fits _, rfl, wf_load image fits _⟩

/-! ### The ends of the stack -/

/-- At both ends of its range, `sp` 0 and 256, PUSH decrements `sp` to 255 and stores there (R31, R222). -/
theorem push_stores_at_255 {s : State} {i : Fin 8} (passed : Nat) (hw : Memory.wf s.mem = true) (hpc : s.pc + 1 < 256)
    (hi : operandA s = BitVec.ofNat 8 i) (hend : s.sp = 0 ∨ s.sp = 256) :
    ∃ t, exec (.push passed) s = .next t ∧ t.sp = 255 ∧ Memory.read t.mem 255 = s.regs[i] := by
  have hsp : (s.sp - 1) % 256 = 255 := by omega
  refine ⟨_, pushStoresTheRegister s passed i hpc hi, hsp, ?stored⟩
  case stored =>
    rw [hsp]
    exact read_write_same hw 255 _

/-- With `sp` 255 POP reads the last cell and wraps `sp` to 0 (R31, R222). -/
theorem pop_wraps_at_255 {s : State} {i : Fin 8} (passed : Nat) (hpc : s.pc + 1 < 256)
    (hi : operandA s = BitVec.ofNat 8 i) (hsp : s.sp = 255) :
    ∃ t, exec (.pop passed) s = .next t ∧ t.sp = 0 ∧ t.regs[i] = Memory.read s.mem 255 := by
  have hpop := popLoadsTheRegister s passed i hpc hi (by omega) (by omega)
  rw [hsp] at hpop
  exact ⟨_, hpop, rfl, Vector.getElem_set_self i.isLt⟩

/-- With `sp` 255 RET transfers to the byte of the last cell and leaves `sp` 256 (R31, R222). -/
theorem ret_leaves_256 {s : State} (hsp : s.sp = 255) :
    ∃ t, exec .ret s = .next t ∧ t.sp = 256 ∧ t.pc = (Memory.read s.mem 255).toNat := by
  have hret := exec_ret (s := s) (by omega) (by omega)
  rw [hsp] at hret
  exact ⟨_, hret, rfl, rfl⟩

/-- Settles O29: PUSH wraps from both ends; the aborts are those of a stack access outside memory (R182). -/
theorem stackEndsDiffer : Obligations.StackEndsDiffer := by
  intro s passed i hw hpc hi
  obtain ⟨pop_aborts, ret_aborts, call_aborts⟩ := stackAccessOutsideMemoryAborts
  refine ⟨fun hsp => ?sp0, fun hsp => ?sp255, fun hsp => ?sp256⟩
  case sp0 =>
    have hcall := call_aborts s i (by omega)
    rw [hsp] at hcall
    exact ⟨push_stores_at_255 passed hw hpc hi (.inl hsp), hcall⟩
  case sp255 => exact ⟨pop_wraps_at_255 passed hpc hi hsp, ret_leaves_256 hsp⟩
  case sp256 =>
    obtain ⟨t, hcall, heffect⟩ := call_has_effect s i (by omega) (by omega)
    have ht : t.sp = s.sp - 1 := (effect_frame heffect).sp
    have hpop := pop_aborts s passed hpc (by omega)
    have hret := ret_aborts s (by omega)
    rw [hsp] at ht hpop hret
    exact ⟨push_stores_at_255 passed hw hpc hi (.inr hsp), ⟨t, hcall, ht⟩, hpop, hret⟩

end Sys2Proof.Machine
